-- ==== Sys2Proof/Word.lean ====
section
/-! DEFINITION. The word types of the core (10_state.md R20, R22, R27; 00_scope.md R11): bytes, 16-bit words and register
indices. Every value is unsigned. -/

namespace Sys2Proof

/-- A memory byte, a general register, a timer: 8 bits, unsigned (R11, R20). -/
abbrev Byte := BitVec 8

/-- An instruction word, `pc`, `I`, a call-stack slot: 16 bits, unsigned (R11, R22, R27, R28). -/
abbrev Word := BitVec 16

/-- A register index: a 4-bit field, so always 0 to 15 (R20). -/
abbrev RegIdx := Fin 16

end Sys2Proof
end

