-- ==== Sys2Proof/Syntax.lean ====
section
/-! DEFINITION. The 34 instructions of 30_encoding.md R96, one constructor per row of the opcode table, with the operands of
R13 and R93: `x`, `y` register indices, `kk` an 8-bit immediate, `nnn` the 12-bit address already zero-extended to 16 bits,
`n` the height of a sprite. -/

namespace Sys2Proof

/-- An instruction of the base CHIP-8 set (R2, R96, R100). -/
inductive Instr where
  /-- 00E0, CLS (R220). -/
  | cls
  /-- 00EE, RET (R140). -/
  | ret
  /-- 1nnn, JP nnn (R141). -/
  | jpNnn (nnn : Word)
  /-- 2nnn, CALL nnn (R142). -/
  | callNnn (nnn : Word)
  /-- 3xkk, SE Vx, kk (R144). -/
  | seVxKk (x : RegIdx) (kk : Byte)
  /-- 4xkk, SNE Vx, kk (R145). -/
  | sneVxKk (x : RegIdx) (kk : Byte)
  /-- 5xy0, SE Vx, Vy (R146). -/
  | seVxVy (x y : RegIdx)
  /-- 6xkk, LD Vx, kk (R171). -/
  | ldVxKk (x : RegIdx) (kk : Byte)
  /-- 7xkk, ADD Vx, kk (R172). -/
  | addVxKk (x : RegIdx) (kk : Byte)
  /-- 8xy0, LD Vx, Vy (R173). -/
  | ldVxVy (x y : RegIdx)
  /-- 8xy1, OR Vx, Vy (R174). -/
  | orVxVy (x y : RegIdx)
  /-- 8xy2, AND Vx, Vy (R175). -/
  | andVxVy (x y : RegIdx)
  /-- 8xy3, XOR Vx, Vy (R176). -/
  | xorVxVy (x y : RegIdx)
  /-- 8xy4, ADD Vx, Vy (R179). -/
  | addVxVy (x y : RegIdx)
  /-- 8xy5, SUB Vx, Vy (R180). -/
  | subVxVy (x y : RegIdx)
  /-- 8xy6, SHR Vx, Vy (R181); `y` is encoded but not read. -/
  | shrVxVy (x y : RegIdx)
  /-- 8xy7, SUBN Vx, Vy (R182). -/
  | subnVxVy (x y : RegIdx)
  /-- 8xyE, SHL Vx, Vy (R183); `y` is encoded but not read. -/
  | shlVxVy (x y : RegIdx)
  /-- 9xy0, SNE Vx, Vy (R147). -/
  | sneVxVy (x y : RegIdx)
  /-- Annn, LD I, nnn (R201). -/
  | ldINnn (nnn : Word)
  /-- Bnnn, JP V0, nnn (R148). -/
  | jpV0Nnn (nnn : Word)
  /-- Cxkk, RND Vx, kk (R186). -/
  | rndVxKk (x : RegIdx) (kk : Byte)
  /-- Dxyn, DRW Vx, Vy, n (R222). -/
  | drwVxVyN (x y : RegIdx) (n : Nat)
  /-- Ex9E, SKP Vx (R240). -/
  | skpVx (x : RegIdx)
  /-- ExA1, SKNP Vx (R241). -/
  | sknpVx (x : RegIdx)
  /-- Fx07, LD Vx, DT (R243). -/
  | ldVxDT (x : RegIdx)
  /-- Fx0A, LD Vx, K (R244). -/
  | ldVxK (x : RegIdx)
  /-- Fx15, LD DT, Vx (R245). -/
  | ldDTVx (x : RegIdx)
  /-- Fx18, LD ST, Vx (R246). -/
  | ldSTVx (x : RegIdx)
  /-- Fx1E, ADD I, Vx (R202). -/
  | addIVx (x : RegIdx)
  /-- Fx29, LD F, Vx (R203). -/
  | ldFVx (x : RegIdx)
  /-- Fx33, LD B, Vx (R204). -/
  | ldBVx (x : RegIdx)
  /-- Fx55, LD [I], Vx (R208). -/
  | ldMemVx (x : RegIdx)
  /-- Fx65, LD Vx, [I] (R209). -/
  | ldVxMem (x : RegIdx)
deriving DecidableEq, Repr

end Sys2Proof
end

