-- ==== Sys2Proof/WellFormed.lean ====
section
/-! DEFINITION. When an instruction is well formed: its operands fit the fields of its format (30_encoding.md R92, R93).
Register indices (Fin 16) and 8-bit immediates fit by their types; the two checks left are an address of 12 bits and a sprite
height of 4 bits. -/

namespace Sys2Proof

/-- `nnn` is a 12-bit unsigned address (R93). -/
def addressFits (nnn : Word) : Bool := decide (nnn.toNat < 0x1000)

/-- `n` is a 4-bit unsigned count, 0 to 15 (R93). -/
def heightFits (n : Nat) : Bool := decide (n < 16)

/-- Every operand fits its field. -/
def Instr.wellFormed : Instr → Bool
  | .cls => true
  | .ret => true
  | .jpNnn nnn => addressFits nnn
  | .callNnn nnn => addressFits nnn
  | .seVxKk _ _ => true
  | .sneVxKk _ _ => true
  | .seVxVy _ _ => true
  | .ldVxKk _ _ => true
  | .addVxKk _ _ => true
  | .ldVxVy _ _ => true
  | .orVxVy _ _ => true
  | .andVxVy _ _ => true
  | .xorVxVy _ _ => true
  | .addVxVy _ _ => true
  | .subVxVy _ _ => true
  | .shrVxVy _ _ => true
  | .subnVxVy _ _ => true
  | .shlVxVy _ _ => true
  | .sneVxVy _ _ => true
  | .ldINnn nnn => addressFits nnn
  | .jpV0Nnn nnn => addressFits nnn
  | .rndVxKk _ _ => true
  | .drwVxVyN _ _ n => heightFits n
  | .skpVx _ => true
  | .sknpVx _ => true
  | .ldVxDT _ => true
  | .ldVxK _ => true
  | .ldDTVx _ => true
  | .ldSTVx _ => true
  | .addIVx _ => true
  | .ldFVx _ => true
  | .ldBVx _ => true
  | .ldMemVx _ => true
  | .ldVxMem _ => true

end Sys2Proof
end

