-- ==== Sys2Proof/Decode.lean ====
section
/-! DEFINITION. The decoder of 30_encoding.md R94, total on all 65536 words and rejecting by name; the encoder written from
the formats of R92 and the map of R96; and the opcode map itself as a list of rows (mask, match).
The numbers are general knowledge of the spec (R96, 92_eei_decisions.md D10; log 11), the strict decoding its decision D9
(R97; log 10). -/

namespace Sys2Proof

/-- Why bytes decode to no instruction. -/
inductive DecodeError where
  /-- The word matches no row of R96 (R98): the executor raises UnimplementedOpcode with this word. -/
  | unimplementedOpcode (op : Word)
  /-- Fewer than the two bytes of an instruction (R90); a fetch never meets this. -/
  | truncated
deriving DecidableEq, Repr

/-! ### The fields of a word (R91) -/

/-- `g = op[15:12]`, the group. -/
def fieldG (op : Word) : BitVec 4 := op.extractLsb' 12 4

/-- `x = op[11:8]`. -/
def fieldX (op : Word) : RegIdx := ⟨(op.extractLsb' 8 4).toNat, (op.extractLsb' 8 4).isLt⟩

/-- `y = op[7:4]`. -/
def fieldY (op : Word) : RegIdx := ⟨(op.extractLsb' 4 4).toNat, (op.extractLsb' 4 4).isLt⟩

/-- `n = op[3:0]`, as the bits of a function code. -/
def fieldN (op : Word) : BitVec 4 := op.extractLsb' 0 4

/-- `kk = op[7:0]`. -/
def fieldKk (op : Word) : Byte := op.extractLsb' 0 8

/-- `nnn = op[11:0]`, zero-extended to 16 bits (R93). -/
def fieldNnn (op : Word) : Word := (op.extractLsb' 0 12).setWidth 16

/-! ### Decoding (R94) -/

/-- Group 0x0: the exact words 00E0 and 00EE (R97). -/
def decodeGroup0 (op : Word) : Option Instr :=
  if op = 0x00E0#16 then some .cls
  else if op = 0x00EE#16 then some .ret
  else none

/-- Group 0x8: the function code is the low nibble. -/
def decodeGroup8 (op : Word) : Option Instr :=
  match fieldN op with
  | 0x0#4 => some (.ldVxVy (fieldX op) (fieldY op))
  | 0x1#4 => some (.orVxVy (fieldX op) (fieldY op))
  | 0x2#4 => some (.andVxVy (fieldX op) (fieldY op))
  | 0x3#4 => some (.xorVxVy (fieldX op) (fieldY op))
  | 0x4#4 => some (.addVxVy (fieldX op) (fieldY op))
  | 0x5#4 => some (.subVxVy (fieldX op) (fieldY op))
  | 0x6#4 => some (.shrVxVy (fieldX op) (fieldY op))
  | 0x7#4 => some (.subnVxVy (fieldX op) (fieldY op))
  | 0xE#4 => some (.shlVxVy (fieldX op) (fieldY op))
  | _ => none

/-- Group 0xE: the function code is the low byte. -/
def decodeGroupE (op : Word) : Option Instr :=
  match fieldKk op with
  | 0x9E#8 => some (.skpVx (fieldX op))
  | 0xA1#8 => some (.sknpVx (fieldX op))
  | _ => none

/-- Group 0xF: the function code is the low byte. -/
def decodeGroupF (op : Word) : Option Instr :=
  match fieldKk op with
  | 0x07#8 => some (.ldVxDT (fieldX op))
  | 0x0A#8 => some (.ldVxK (fieldX op))
  | 0x15#8 => some (.ldDTVx (fieldX op))
  | 0x18#8 => some (.ldSTVx (fieldX op))
  | 0x1E#8 => some (.addIVx (fieldX op))
  | 0x29#8 => some (.ldFVx (fieldX op))
  | 0x33#8 => some (.ldBVx (fieldX op))
  | 0x55#8 => some (.ldMemVx (fieldX op))
  | 0x65#8 => some (.ldVxMem (fieldX op))
  | _ => none

/-- The instruction a word stands for, by its group (R94, R95); none where the word is illegal. -/
def decodeByGroup (op : Word) : Option Instr :=
  match fieldG op with
  | 0x0#4 => decodeGroup0 op
  | 0x1#4 => some (.jpNnn (fieldNnn op))
  | 0x2#4 => some (.callNnn (fieldNnn op))
  | 0x3#4 => some (.seVxKk (fieldX op) (fieldKk op))
  | 0x4#4 => some (.sneVxKk (fieldX op) (fieldKk op))
  | 0x5#4 => if fieldN op = 0#4 then some (.seVxVy (fieldX op) (fieldY op)) else none
  | 0x6#4 => some (.ldVxKk (fieldX op) (fieldKk op))
  | 0x7#4 => some (.addVxKk (fieldX op) (fieldKk op))
  | 0x8#4 => decodeGroup8 op
  | 0x9#4 => if fieldN op = 0#4 then some (.sneVxVy (fieldX op) (fieldY op)) else none
  | 0xA#4 => some (.ldINnn (fieldNnn op))
  | 0xB#4 => some (.jpV0Nnn (fieldNnn op))
  | 0xC#4 => some (.rndVxKk (fieldX op) (fieldKk op))
  | 0xD#4 => some (.drwVxVyN (fieldX op) (fieldY op) (fieldN op).toNat)
  | 0xE#4 => decodeGroupE op
  | 0xF#4 => decodeGroupF op
  | _ => none

/-- The decoder (R94): every word is one instruction, or is rejected as UnimplementedOpcode naming the word (R98, R99). -/
def decodeWord (op : Word) : Except DecodeError Instr :=
  match decodeByGroup op with
  | some i => .ok i
  | none => .error (.unimplementedOpcode op)

/-- Two consecutive bytes as a big-endian word (R63): the byte at the lower address is bits 15 to 8. -/
def wordOfBytes (hi lo : Byte) : Word := hi ++ lo

/-- The bytes of a word in the order they are stored (R63). -/
def bytesOfWord (op : Word) : List Byte := [op.extractLsb' 8 8, op.extractLsb' 0 8]

/-- Decoding from bytes: an instruction is exactly two bytes (R90), and the rest of the bytes is given back. -/
def decodeBytes : List Byte → Except DecodeError (Instr × List Byte)
  | hi :: lo :: rest =>
    match decodeWord (wordOfBytes hi lo) with
    | .ok i => .ok (i, rest)
    | .error e => .error e
  | _ => .error .truncated

/-! ### Encoding (R92, R96) -/

/-- A register index as the four bits of its field. -/
def regBits (x : RegIdx) : BitVec 4 := BitVec.ofNat 4 x.val

/-- Format FA, `g nnn`. -/
def formatFA (g : BitVec 4) (nnn : Word) : Word := g ++ nnn.setWidth 12

/-- Format FXK, `g x kk`; format FXF is the same layout with the function code in `kk`. -/
def formatFXK (g : BitVec 4) (x : RegIdx) (kk : Byte) : Word := g ++ regBits x ++ kk

/-- Formats FXY0, FXYF and FXYN, `g x y n`. -/
def formatFXYN (g : BitVec 4) (x y : RegIdx) (n : BitVec 4) : Word := g ++ regBits x ++ regBits y ++ n

/-- The word of an instruction (R92, R96). -/
def encode : Instr → Word
  | .cls => 0x00E0#16
  | .ret => 0x00EE#16
  | .jpNnn nnn => formatFA 0x1#4 nnn
  | .callNnn nnn => formatFA 0x2#4 nnn
  | .seVxKk x kk => formatFXK 0x3#4 x kk
  | .sneVxKk x kk => formatFXK 0x4#4 x kk
  | .seVxVy x y => formatFXYN 0x5#4 x y 0x0#4
  | .ldVxKk x kk => formatFXK 0x6#4 x kk
  | .addVxKk x kk => formatFXK 0x7#4 x kk
  | .ldVxVy x y => formatFXYN 0x8#4 x y 0x0#4
  | .orVxVy x y => formatFXYN 0x8#4 x y 0x1#4
  | .andVxVy x y => formatFXYN 0x8#4 x y 0x2#4
  | .xorVxVy x y => formatFXYN 0x8#4 x y 0x3#4
  | .addVxVy x y => formatFXYN 0x8#4 x y 0x4#4
  | .subVxVy x y => formatFXYN 0x8#4 x y 0x5#4
  | .shrVxVy x y => formatFXYN 0x8#4 x y 0x6#4
  | .subnVxVy x y => formatFXYN 0x8#4 x y 0x7#4
  | .shlVxVy x y => formatFXYN 0x8#4 x y 0xE#4
  | .sneVxVy x y => formatFXYN 0x9#4 x y 0x0#4
  | .ldINnn nnn => formatFA 0xA#4 nnn
  | .jpV0Nnn nnn => formatFA 0xB#4 nnn
  | .rndVxKk x kk => formatFXK 0xC#4 x kk
  | .drwVxVyN x y n => formatFXYN 0xD#4 x y (BitVec.ofNat 4 n)
  | .skpVx x => formatFXK 0xE#4 x 0x9E#8
  | .sknpVx x => formatFXK 0xE#4 x 0xA1#8
  | .ldVxDT x => formatFXK 0xF#4 x 0x07#8
  | .ldVxK x => formatFXK 0xF#4 x 0x0A#8
  | .ldDTVx x => formatFXK 0xF#4 x 0x15#8
  | .ldSTVx x => formatFXK 0xF#4 x 0x18#8
  | .addIVx x => formatFXK 0xF#4 x 0x1E#8
  | .ldFVx x => formatFXK 0xF#4 x 0x29#8
  | .ldBVx x => formatFXK 0xF#4 x 0x33#8
  | .ldMemVx x => formatFXK 0xF#4 x 0x55#8
  | .ldVxMem x => formatFXK 0xF#4 x 0x65#8

/-- The bytes of an instruction as a ROM holds them (R63). -/
def encodeBytes (i : Instr) : List Byte := bytesOfWord (encode i)

/-! ### The opcode map (R96) -/

/-- One row of R96: a word `op` matches it when `op &&& mask = bits`. -/
structure OpcodeRow where
  mnemonic : String
  mask : Word
  bits : Word
deriving DecidableEq, Repr

/-- `op & mask_r == match_r` (R96). -/
def OpcodeRow.matchesWord (r : OpcodeRow) (op : Word) : Bool := op &&& r.mask == r.bits

/-- The row of each instruction (R96), with the mnemonic of R101. -/
def opcodeRow : Instr → OpcodeRow
  | .cls => ⟨"CLS", 0xFFFF#16, 0x00E0#16⟩
  | .ret => ⟨"RET", 0xFFFF#16, 0x00EE#16⟩
  | .jpNnn _ => ⟨"JP nnn", 0xF000#16, 0x1000#16⟩
  | .callNnn _ => ⟨"CALL nnn", 0xF000#16, 0x2000#16⟩
  | .seVxKk _ _ => ⟨"SE Vx, kk", 0xF000#16, 0x3000#16⟩
  | .sneVxKk _ _ => ⟨"SNE Vx, kk", 0xF000#16, 0x4000#16⟩
  | .seVxVy _ _ => ⟨"SE Vx, Vy", 0xF00F#16, 0x5000#16⟩
  | .ldVxKk _ _ => ⟨"LD Vx, kk", 0xF000#16, 0x6000#16⟩
  | .addVxKk _ _ => ⟨"ADD Vx, kk", 0xF000#16, 0x7000#16⟩
  | .ldVxVy _ _ => ⟨"LD Vx, Vy", 0xF00F#16, 0x8000#16⟩
  | .orVxVy _ _ => ⟨"OR Vx, Vy", 0xF00F#16, 0x8001#16⟩
  | .andVxVy _ _ => ⟨"AND Vx, Vy", 0xF00F#16, 0x8002#16⟩
  | .xorVxVy _ _ => ⟨"XOR Vx, Vy", 0xF00F#16, 0x8003#16⟩
  | .addVxVy _ _ => ⟨"ADD Vx, Vy", 0xF00F#16, 0x8004#16⟩
  | .subVxVy _ _ => ⟨"SUB Vx, Vy", 0xF00F#16, 0x8005#16⟩
  | .shrVxVy _ _ => ⟨"SHR Vx, Vy", 0xF00F#16, 0x8006#16⟩
  | .subnVxVy _ _ => ⟨"SUBN Vx, Vy", 0xF00F#16, 0x8007#16⟩
  | .shlVxVy _ _ => ⟨"SHL Vx, Vy", 0xF00F#16, 0x800E#16⟩
  | .sneVxVy _ _ => ⟨"SNE Vx, Vy", 0xF00F#16, 0x9000#16⟩
  | .ldINnn _ => ⟨"LD I, nnn", 0xF000#16, 0xA000#16⟩
  | .jpV0Nnn _ => ⟨"JP V0, nnn", 0xF000#16, 0xB000#16⟩
  | .rndVxKk _ _ => ⟨"RND Vx, kk", 0xF000#16, 0xC000#16⟩
  | .drwVxVyN _ _ _ => ⟨"DRW Vx, Vy, n", 0xF000#16, 0xD000#16⟩
  | .skpVx _ => ⟨"SKP Vx", 0xF0FF#16, 0xE09E#16⟩
  | .sknpVx _ => ⟨"SKNP Vx", 0xF0FF#16, 0xE0A1#16⟩
  | .ldVxDT _ => ⟨"LD Vx, DT", 0xF0FF#16, 0xF007#16⟩
  | .ldVxK _ => ⟨"LD Vx, K", 0xF0FF#16, 0xF00A#16⟩
  | .ldDTVx _ => ⟨"LD DT, Vx", 0xF0FF#16, 0xF015#16⟩
  | .ldSTVx _ => ⟨"LD ST, Vx", 0xF0FF#16, 0xF018#16⟩
  | .addIVx _ => ⟨"ADD I, Vx", 0xF0FF#16, 0xF01E#16⟩
  | .ldFVx _ => ⟨"LD F, Vx", 0xF0FF#16, 0xF029#16⟩
  | .ldBVx _ => ⟨"LD B, Vx", 0xF0FF#16, 0xF033#16⟩
  | .ldMemVx _ => ⟨"LD [I], Vx", 0xF0FF#16, 0xF055#16⟩
  | .ldVxMem _ => ⟨"LD Vx, [I]", 0xF0FF#16, 0xF065#16⟩

/-- The 34 rows of R96 in its order, each taken from one instruction of its row. -/
def opcodeTable : List OpcodeRow :=
  ([.cls, .ret, .jpNnn 0, .callNnn 0, .seVxKk 0 0, .sneVxKk 0 0, .seVxVy 0 0, .ldVxKk 0 0, .addVxKk 0 0] : List Instr).map opcodeRow
  ++ ([.ldVxVy 0 0, .orVxVy 0 0, .andVxVy 0 0, .xorVxVy 0 0, .addVxVy 0 0, .subVxVy 0 0, .shrVxVy 0 0, .subnVxVy 0 0,
       .shlVxVy 0 0, .sneVxVy 0 0] : List Instr).map opcodeRow
  ++ ([.ldINnn 0, .jpV0Nnn 0, .rndVxKk 0 0, .drwVxVyN 0 0 0, .skpVx 0, .sknpVx 0] : List Instr).map opcodeRow
  ++ ([.ldVxDT 0, .ldVxK 0, .ldDTVx 0, .ldSTVx 0, .addIVx 0, .ldFVx 0, .ldBVx 0, .ldMemVx 0, .ldVxMem 0] : List Instr).map opcodeRow

/-! ### The host's reading of the opcode table -/

/-- The word whose bits are `w`, the bits from `nbits` up being zero (opcode_table.json numbers bit 0 as the least
significant bit of the word). -/
def tableWord (nbits w : Nat) : Word := BitVec.ofNat 16 (w % 2 ^ nbits)

/-- The instruction the decoder reads from the bytes of that word; none where it refuses. -/
def decodeTableWord (nbits w : Nat) : Option Instr :=
  match decodeBytes (bytesOfWord (tableWord nbits w)) with
  | .ok (i, _) => some i
  | .error _ => none

end Sys2Proof
end

