-- ==== Sys2Proof/Config.lean ====
section
/-! DEFINITION. The fixed parameters of the core (00_scope.md R7), the default of the FONT parameter (R8, 92_eei_decisions.md
D11) and the free value that RND draws (R9, D12). -/

namespace Sys2Proof

/-- The FONT parameter: 80 bytes, 16 glyphs of 5 rows (R7, R8). -/
abbrev Font := Vector Byte 80

namespace Config

/-- `MEM_SIZE` (R7). -/
@[simp] def memSize : Nat := 4096

/-- `ROM_BASE`: where `load` writes the first byte (R7). -/
@[simp] def romBase : Nat := 0x200

/-- `ROM_MAX`: the longest ROM `load` accepts (R7). -/
@[simp] def romMax : Nat := 3584

/-- `STACK_DEPTH` (R7, R28). -/
@[simp] def stackDepth : Nat := 16

/-- `FONT_SIZE` (R7); the font stands at `FONT_BASE` = 0. -/
@[simp] def fontSize : Nat := 80

/-- `GLYPH_BYTES` (R7). -/
@[simp] def glyphBytes : Nat := 5

/-- `ENTRY`: the reset value of `pc` (R7, R40, R61). -/
@[simp] def entryPoint : Word := 0x200

/-- `FLAG`: the index of the flag register VF (R7, R21). -/
@[simp] def flagReg : RegIdx := 15

/-- The default of FONT, the conventional font of 92_eei_decisions.md D11, glyph by glyph from 0 to F.
PRESUMED (log 1): the source gives no byte of it. It is only the value that `State.reset` puts into the field `font`. -/
def defaultFont : Font :=
  #v[0xF0, 0x90, 0x90, 0x90, 0xF0,  0x20, 0x60, 0x20, 0x20, 0x70,
     0xF0, 0x10, 0xF0, 0x80, 0xF0,  0xF0, 0x10, 0xF0, 0x10, 0xF0,
     0x90, 0x90, 0xF0, 0x10, 0x10,  0xF0, 0x80, 0xF0, 0x10, 0xF0,
     0xF0, 0x80, 0xF0, 0x90, 0xF0,  0xF0, 0x10, 0x20, 0x40, 0x40,
     0xF0, 0x90, 0xF0, 0x90, 0xF0,  0xF0, 0x90, 0xF0, 0x10, 0xF0,
     0xF0, 0x90, 0xF0, 0x90, 0x90,  0xE0, 0x90, 0xE0, 0x90, 0xE0,
     0xF0, 0x80, 0x80, 0x80, 0xF0,  0xE0, 0x90, 0x90, 0x90, 0xE0,
     0xF0, 0x80, 0xF0, 0x80, 0xF0,  0xF0, 0x80, 0xF0, 0x80, 0x80]

/-- FREE VALUE (log 3): the byte of the entropy source for the `n`-th draw of RND (R9, 42_alu.md R185). No body: no law
constrains it, and a claim holds for every sequence of draws. -/
opaque entropy : Nat → Byte

end Config

end Sys2Proof
end

