-- ==== Sys2Proof/Machine/State.lean ====
section
/-! DEFINITION. The state of the core (10_state.md R38), its faults (60_exceptions.md R260), its fault latch (R37), and the
state after reset (R40). All of it is plain data. -/

namespace Sys2Proof.Machine

/-- The six fault kinds of R260, each with the info it records. On this hardware a fault does not stop the model: a `tick` TAKES
it (the latch `State.fault`, R126, R265) and `load` and `keypress` return it (R262), so `step` and `exec` never answer
`Outcome.fault` with one. -/
inductive Fault where
  /-- Code 1. Raised by CALL when `sp == 16` (41_control_flow.md R142); latched. Safe: the core stops executing as the spec says. -/
  | stackOverflow
  /-- Code 2. Raised by RET when `sp == 0` (41_control_flow.md R140); latched. Safe: as the spec says. -/
  | stackUnderflow
  /-- Code 3. Raised by the decode of a word that matches no instruction (30_encoding.md R98), with the raw word; latched. Safe:
  a looser decoder would go on (log 10). -/
  | unimplementedOpcode (op : Word)
  /-- Code 4. Returned by `load` of more than 3584 bytes (20_memory.md R71), with the length; never latched. Safe: nothing is
  written (log 13). -/
  | outOfRangeRomLoad (len : Nat)
  /-- Code 5. Raised by SKP and SKNP when `V[x] > 15` (45_keys_timers.md R242) and latched; returned by `keypress` with an index
  above 15 (R276) and not latched. Safe: an implementation that masks would go on (log 9, log 13). -/
  | invalidKeyIndex (index : Nat)
  /-- Code 6. Raised by a memory access above 4095 (20_memory.md R64), with the lowest such address; latched. Safe: an
  implementation that wraps would go on (log 5). -/
  | addressOutOfRange (addr : Nat)
deriving DecidableEq, Repr

/-- Why the model gives no answer. Every instruction of the table has its meaning, so no step of this model is refused. -/
inductive Refusal where
  /-- An instruction without a meaning yet, by its mnemonic; raised by an arm of `exec` only. Safe: nothing is claimed of it. -/
  | notModelled (mnemonic : String)
deriving DecidableEq, Repr

/-- What the fault latch holds (R37): the fault with its info, and the address of the instruction whose tick faulted. -/
structure FaultRecord where
  kind : Fault
  faultPc : Word
deriving DecidableEq, Repr

/-- The execution state derived from the latch and `wait_key` (R37). -/
inductive ExecState where
  | running
  | waitingForKey
  | faulted
deriving DecidableEq, Repr

/-- The display buffer (R34): 32 rows of 64 pixels, true means set; `disp[x][y]` of the spec is row `y`, column `x`. -/
abbrev Display := Vector (Vector Bool 64) 32

/-- Memory as the bytes that differ from what an unlisted address reads as (log 18). -/
abbrev Memory := List Host.Cell

/-- The state of the core (R38). `font` and `draws` are the model's own fields (log 1, log 3). -/
structure State where
  /-- V0 to VF (R20, R21). -/
  v : Vector Byte 16
  /-- The index register I (R27). -/
  i : Word
  /-- The program counter (R22). -/
  pc : Word
  /-- The stack pointer: how many return addresses the stack holds, 0 to 16 (R28). -/
  sp : Fin 17
  /-- The call-stack slots (R28, R29). -/
  stack : Vector Word 16
  /-- The delay timer DT (R31). -/
  dt : Byte
  /-- The sound timer ST (R32). -/
  st : Byte
  /-- The key latch (R33). -/
  key : Vector Bool 16
  /-- The display buffer (R34). -/
  disp : Display
  /-- The memory (R35), in the canonical form of `Memory.wf`. -/
  mem : Memory
  /-- The status bit `wait_key` (R36). -/
  waitKey : Bool
  /-- The fault latch (R37). -/
  fault : Option FaultRecord
  /-- MODEL'S OWN: the parameter FONT (R8), which no instruction and no command changes (log 1). -/
  font : Font
  /-- MODEL'S OWN: how many bytes RND has drawn from `Config.entropy` (R9, R185; log 3). -/
  draws : Nat
deriving DecidableEq, Repr

/-- The state after reset (R40, R41): memory lists nothing, so it holds the font at 0x000 and 0 elsewhere. -/
def State.reset : State where
  v := Vector.replicate 16 0
  i := 0
  pc := Config.entryPoint
  sp := 0
  stack := Vector.replicate 16 0
  dt := 0
  st := 0
  key := Vector.replicate 16 false
  disp := Vector.replicate 32 (Vector.replicate 64 false)
  mem := []
  waitKey := false
  fault := none
  font := Config.defaultFont
  draws := 0

end Sys2Proof.Machine
end

