-- ==== Sys2Proof/Machine/Ops.lean ====
section
/-! DEFINITION. The named operations every meaning is written with: memory (20_memory.md), registers and pc (10_state.md), the
call stack (R29), the display (44_display.md), the fetch (40_execution_cycle.md R121), the shape of a tick's execution, and the
taking of a fault (R126, 60_exceptions.md R265). -/

namespace Sys2Proof.Machine

/-! ### Memory as data -/

/-- What an address that memory does not list reads as (10_state.md R40, 20_memory.md R61): the font at 0x000 to 0x04F, 0
everywhere else. -/
def Memory.background (font : Font) (a : Nat) : Byte :=
  if h : a < 80 then font[a] else 0

/-- The byte at `a`. -/
def Memory.read (font : Font) : Memory → Nat → Byte
  | [], a => Memory.background font a
  | (b, w) :: m, a => if a = b then w else Memory.read font m a

/-- Put `v` at `a` before the cells `m`, unless `v` is what `a` reads as unlisted. -/
def Memory.consCell (font : Font) (a : Nat) (v : Byte) (m : Memory) : Memory :=
  if v = Memory.background font a then m else (a, v) :: m

/-- Memory after the byte `v` is written at `a`, in canonical form again. -/
def Memory.write (font : Font) : Memory → Nat → Byte → Memory
  | [], a, v => Memory.consCell font a v []
  | (b, w) :: m, a, v =>
    if a < b then Memory.consCell font a v ((b, w) :: m)
    else if a = b then Memory.consCell font a v m
    else (b, w) :: Memory.write font m a v

/-- The bytes `bs` written at `base`, `base + 1`, ... (20_memory.md R70). -/
def Memory.writeList (font : Font) (m : Memory) (base : Nat) : List Byte → Memory
  | [] => m
  | b :: bs => Memory.writeList font (Memory.write font m base b) (base + 1) bs

/-- The canonical form, from the address `lo` up: addresses strictly rising and below 4096, and no cell equal to what its
address reads as unlisted. -/
def Memory.wfFrom (font : Font) (lo : Nat) : Memory → Bool
  | [] => true
  | (a, v) :: m =>
    decide (lo ≤ a) && decide (a < 4096) && decide (v ≠ Memory.background font a) && Memory.wfFrom font (a + 1) m

/-- The canonical form of memory (log 18). -/
def Memory.wf (font : Font) (m : Memory) : Bool := Memory.wfFrom font 0 m

/-! ### Memory accesses of an instruction (R12, R64) -/

/-- The byte of the state at `a`, with no range check: how statements and the host read memory. -/
def State.byteAt (s : State) (a : Nat) : Byte := Memory.read s.font s.mem a

/-- Memory after `v` is written at `a`, with no range check. -/
def State.setByte (a : Nat) (v : Byte) (s : State) : State := { s with mem := Memory.write s.font s.mem a v }

/-- `MemRead(a, 1)`: the range check first (R64). -/
def State.memRead (s : State) (a : Nat) : Except Fault Byte :=
  if 4095 < a then .error (.addressOutOfRange a) else .ok (s.byteAt a)

/-- `MemWrite(a, 1, v)`: the range check first (R64). -/
def State.memWrite (s : State) (a : Nat) (v : Byte) : Except Fault State :=
  if 4095 < a then .error (.addressOutOfRange a) else .ok (s.setByte a v)

/-- `MemRead(a, 1)`, `MemRead(a + 1, 1)`, ... for `n` addresses, in rising order (R200). -/
def State.loadBytes (s : State) : Nat → Nat → Except Fault (List Byte)
  | _, 0 => .ok []
  | a, n + 1 =>
    match s.memRead a with
    | .error f => .error f
    | .ok b =>
      match s.loadBytes (a + 1) n with
      | .error f => .error f
      | .ok bs => .ok (b :: bs)

/-- `MemWrite(a, 1, b0)`, `MemWrite(a + 1, 1, b1)`, ... in rising order (R200). -/
def State.storeBytes : Nat → List Byte → State → Except Fault State
  | _, [], s => .ok s
  | a, b :: bs, s =>
    match s.memWrite a b with
    | .error f => .error f
    | .ok t => State.storeBytes (a + 1) bs t

/-! ### Registers, pc, timers -/

/-- `V[x]` (R12, R20): no register is hardwired. -/
def State.reg (s : State) (x : RegIdx) : Byte := s.v[x]

/-- `V[x] <- b`. -/
def State.setReg (x : RegIdx) (b : Byte) (s : State) : State := { s with v := s.v.set x b }

/-- `VF <- b`, written as the flag register (R21). -/
def State.setFlag (b : Byte) (s : State) : State := s.setReg Config.flagReg b

/-- `I <- w` (R12, R27). -/
def State.setIndex (w : Word) (s : State) : State := { s with i := w }

/-- `pc <- target` (R12). -/
def State.setPc (target : Word) (s : State) : State := { s with pc := target }

/-- `pc <- pc + 2` when the condition of a skip holds (41_control_flow.md R143). -/
def State.skipIf (c : Bool) (s : State) : State := if c then s.setPc (s.pc + 2) else s

/-- `DT <- b` (R31). -/
def State.setDelay (b : Byte) (s : State) : State := { s with dt := b }

/-- `ST <- b` (R32). -/
def State.setSound (b : Byte) (s : State) : State := { s with st := b }

/-- `wait_key <- b` (R36). -/
def State.setWait (b : Bool) (s : State) : State := { s with waitKey := b }

/-- The display replaced. -/
def State.setDisplay (d : Display) (s : State) : State := { s with disp := d }

/-- Registers V0 to V[len - 1] loaded from a list, the others kept (43_index_memory.md R207, R209). -/
def State.setRegs (bs : List Byte) (s : State) : State :=
  { s with v := Vector.ofFn fun k : Fin 16 => bs.getD k (s.v[k]) }

/-- V0 to Vx inclusive, in order (R207). -/
def State.regsUpTo (s : State) (x : RegIdx) : List Byte := s.v.toList.take (x.val + 1)

/-! ### The call stack (R29) -/

/-- `Push(v)`. -/
def State.push (w : Word) (s : State) : Except Fault State :=
  if h : s.sp.val < 16 then
    .ok { s with stack := s.stack.set s.sp.val w, sp := ⟨s.sp.val + 1, by omega⟩ }
  else .error .stackOverflow

/-- `Pop()`: the popped address and the state after; the slot keeps its value (R30). -/
def State.pop (s : State) : Except Fault (Word × State) :=
  if h : s.sp.val = 0 then .error .stackUnderflow
  else .ok (s.stack[s.sp.val - 1]'(by omega), { s with sp := ⟨s.sp.val - 1, by omega⟩ })

/-! ### The display buffer (R34, R221, R222) -/

/-- `disp[x][y]`. -/
def Display.pixel (d : Display) (x : Fin 64) (y : Fin 32) : Bool := (d[y])[x]

/-- `disp[x][y] <- not disp[x][y]`. -/
def Display.toggle (d : Display) (x : Fin 64) (y : Fin 32) : Display :=
  d.set y ((d[y]).set x (!(Display.pixel d x y)))

/-- Every pixel false (R220). -/
def Display.clear : Display := Vector.replicate 32 (Vector.replicate 64 false)

/-- A display column, `x mod 64` (R221): coordinates wrap, nothing is clipped. -/
def wrapColumn (x : Nat) : Fin 64 := ⟨x % 64, Nat.mod_lt x (by decide)⟩

/-- A display row, `y mod 32` (R221). -/
def wrapRow (y : Nat) : Fin 32 := ⟨y % 32, Nat.mod_lt y (by decide)⟩

/-- The display under a sprite being drawn, and whether a set pixel has been turned off so far (R223). -/
structure Drawing where
  disp : Display
  collision : Bool
deriving DecidableEq, Repr

/-- One set sprite bit drawn: the collision noted, the pixel toggled (R222). -/
def Drawing.plot (px : Fin 64) (py : Fin 32) (d : Drawing) : Drawing :=
  { disp := Display.toggle d.disp px py, collision := d.collision || Display.pixel d.disp px py }

/-- One sprite row, columns `c` in the order given: bit `7 - c` of the byte is column `c`, at `(vx + c) mod 64` (R221). -/
def Drawing.columns (vx : Nat) (py : Fin 32) (b : Byte) : List Nat → Drawing → Drawing
  | [], d => d
  | c :: cs, d =>
    Drawing.columns vx py b cs (if b.getLsbD (7 - c) then Drawing.plot (wrapColumn (vx + c)) py d else d)

/-- The sprite's rows from row `r` on, row `r` at `(vy + r) mod 32` (R221). -/
def Drawing.rows (vx vy : Nat) : Nat → List Byte → Drawing → Drawing
  | _, [], d => d
  | r, b :: bs, d =>
    Drawing.rows vx vy (r + 1) bs (Drawing.columns vx (wrapRow (vy + r)) b (List.range 8) d)

/-- A whole sprite drawn at `(vx, vy)` (R222). -/
def drawSprite (vx vy : Nat) (sprite : List Byte) (d : Display) : Drawing :=
  Drawing.rows vx vy 0 sprite { disp := d, collision := false }

/-- The 2048 pixels in row-major order: element `x + 64 * y` is `disp[x][y]` (60_exceptions.md R275). -/
def Display.rowMajor (d : Display) : List Bool := (d.toList.map Vector.toList).flatten

/-! ### Taking a fault, and the only way out of it -/

/-- TAKING A FAULT (40_execution_cycle.md R126, 60_exceptions.md R265): `s` is the state when the tick began; nothing of it
changes but the latch, which records the kind, its info and the pc. -/
def State.takeFault (f : Fault) (s : State) : State := { s with fault := some { kind := f, faultPc := s.pc } }

/-- The command `reset` (70_reset_and_hazards.md R300), the only exit from Faulted (R267). FONT is re-burned as it is; the bytes
already drawn stay drawn (log 25). -/
def State.resetFrom (s : State) : State := { State.reset with font := s.font, draws := s.draws }

/-- `exec_state` (R37). -/
def State.execState (s : State) : ExecState :=
  match s.fault with
  | some _ => .faulted
  | none => if s.waitKey then .waitingForKey else .running

/-- The numeric code of a fault kind (R260). -/
def Fault.code : Fault → Nat
  | .stackOverflow => 1
  | .stackUnderflow => 2
  | .unimplementedOpcode _ => 3
  | .outOfRangeRomLoad _ => 4
  | .invalidKeyIndex _ => 5
  | .addressOutOfRange _ => 6

/-- The info a fault kind records (R260). -/
def Fault.info : Fault → Option Nat
  | .stackOverflow => none
  | .stackUnderflow => none
  | .unimplementedOpcode op => some op.toNat
  | .outOfRangeRomLoad len => some len
  | .invalidKeyIndex index => some index
  | .addressOutOfRange addr => some addr

/-! ### The tick around an instruction -/

/-- `pc <- a + 2` before the execution (R121), and `wait_key` false unless the instruction sets it (R124; log 12). -/
def State.advance (s : State) : State := { s with pc := s.pc + 2, waitKey := false }

/-- An instruction that cannot fault: its rule runs on the advanced state. -/
def complete (rule : State → State) (s : State) : Host.Outcome State Fault Refusal := .next (rule s.advance)

/-- An instruction that can fault: its rule runs on the advanced state, and a fault voids the whole tick (R126): the latch is set
on the state the tick began with. -/
def completeOrFault (rule : State → Except Fault State) (s : State) : Host.Outcome State Fault Refusal :=
  match rule s.advance with
  | .ok t => .next t
  | .error f => .next (s.takeFault f)

/-- `op <- MemRead(pc, 2)` (R121). -/
def State.fetchWord (s : State) : Except Fault Word :=
  match s.memRead s.pc.toNat with
  | .error f => .error f
  | .ok hi =>
    match s.memRead (s.pc.toNat + 1) with
    | .error f => .error f
    | .ok lo => .ok (wordOfBytes hi lo)

/-- Fetch, then decode (R120, R122): the first of the two that faults decides (R127). -/
def State.fetchInstr (s : State) : Except Fault Instr :=
  match s.fetchWord with
  | .error f => .error f
  | .ok op =>
    match decodeWord op with
    | .ok i => .ok i
    | .error _ => .error (.unimplementedOpcode op)

/-- One tick (R120) with the given execution of an instruction. A latched fault makes it change nothing (R128). -/
def tickBy (execute : Instr → State → Host.Outcome State Fault Refusal) (s : State) : Host.Outcome State Fault Refusal :=
  match s.fault with
  | some _ => .next s
  | none =>
    match s.fetchInstr with
    | .error f => .next (s.takeFault f)
    | .ok i => execute i s

/-- `s` ready to fetch the word `op` at its pc: the word stands there, no fault is latched, and a pc from which nothing can be
fetched (above 4094, R121) is the entry point instead. -/
def State.placeWord (op : Word) (s : State) : State :=
  let pc := if 4094 < s.pc.toNat then Config.entryPoint else s.pc
  { s with pc := pc, fault := none, mem := Memory.writeList s.font s.mem pc.toNat (bytesOfWord op) }

end Sys2Proof.Machine
end

