-- ==== Sys2Proof/Machine/Flags.lean ====
section
/-! DEFINITION. The flag values written to VF (42_alu.md R177), and the write of a result and then the flag (R129, R170). -/

namespace Sys2Proof.Machine

/-- A flag as a byte, 0 or 1 (R177). -/
def flagByte (c : Bool) : Byte := if c then 1#8 else 0#8

/-- ADD Vx, Vy: the carry out of bit 7. -/
def carryFlag (vx vy : Byte) : Byte := flagByte (decide (255 < vx.toNat + vy.toNat))

/-- SUB and SUBN, `minuend - subtrahend`: no borrow. -/
def noBorrowFlag (minuend subtrahend : Byte) : Byte := flagByte (decide (subtrahend.toNat ≤ minuend.toNat))

/-- SHR: the bit shifted out at the right, `vx & 1`. -/
def shiftedRightFlag (vx : Byte) : Byte := flagByte (vx.getLsbD 0)

/-- SHL: the bit shifted out at the left, `(vx >> 7) & 1`. -/
def shiftedLeftFlag (vx : Byte) : Byte := flagByte (vx.getLsbD 7)

/-- DRW: a set pixel was turned off (44_display.md R223). -/
def collisionFlag (collision : Bool) : Byte := flagByte collision

/-- The result to V[x] first, the flag to VF last (R129; log 7): with `x == 15` the flag survives. -/
def State.setRegAndFlag (x : RegIdx) (result flag : Byte) (s : State) : State := (s.setReg x result).setFlag flag

end Sys2Proof.Machine
end

