-- ==== Sys2Proof/Machine/Alu.lean ====
section
/-! DEFINITION. The register and arithmetic instructions (42_alu.md). Operands are read before anything is written (R170). -/

namespace Sys2Proof.Machine

/-- LD Vx, kk (R171). -/
def execLdVxKk (x : RegIdx) (kk : Byte) : State → Host.Outcome State Fault Refusal :=
  complete fun s => s.setReg x kk

/-- ADD Vx, kk (R172): modulo 256, no flag. -/
def execAddVxKk (x : RegIdx) (kk : Byte) : State → Host.Outcome State Fault Refusal :=
  complete fun s => s.setReg x (s.reg x + kk)

/-- LD Vx, Vy (R173). -/
def execLdVxVy (x y : RegIdx) : State → Host.Outcome State Fault Refusal :=
  complete fun s => s.setReg x (s.reg y)

/-- OR Vx, Vy (R174): VF is not cleared. -/
def execOrVxVy (x y : RegIdx) : State → Host.Outcome State Fault Refusal :=
  complete fun s => s.setReg x (s.reg x ||| s.reg y)

/-- AND Vx, Vy (R175): VF is not cleared. -/
def execAndVxVy (x y : RegIdx) : State → Host.Outcome State Fault Refusal :=
  complete fun s => s.setReg x (s.reg x &&& s.reg y)

/-- XOR Vx, Vy (R176): VF is not cleared. -/
def execXorVxVy (x y : RegIdx) : State → Host.Outcome State Fault Refusal :=
  complete fun s => s.setReg x (s.reg x ^^^ s.reg y)

/-- ADD Vx, Vy (R179): modulo 256, VF the carry. -/
def execAddVxVy (x y : RegIdx) : State → Host.Outcome State Fault Refusal :=
  complete fun s => s.setRegAndFlag x (s.reg x + s.reg y) (carryFlag (s.reg x) (s.reg y))

/-- SUB Vx, Vy (R180): `vx - vy` modulo 256, VF no borrow. -/
def execSubVxVy (x y : RegIdx) : State → Host.Outcome State Fault Refusal :=
  complete fun s => s.setRegAndFlag x (s.reg x - s.reg y) (noBorrowFlag (s.reg x) (s.reg y))

/-- SHR Vx, Vy (R181): Vx logically right by one, VF the bit shifted out; Vy is not read. -/
def execShrVxVy (x _y : RegIdx) : State → Host.Outcome State Fault Refusal :=
  complete fun s => s.setRegAndFlag x (s.reg x >>> 1) (shiftedRightFlag (s.reg x))

/-- SUBN Vx, Vy (R182): `vy - vx` modulo 256, VF no borrow with the operands swapped. -/
def execSubnVxVy (x y : RegIdx) : State → Host.Outcome State Fault Refusal :=
  complete fun s => s.setRegAndFlag x (s.reg y - s.reg x) (noBorrowFlag (s.reg y) (s.reg x))

/-- SHL Vx, Vy (R183): Vx left by one, VF the bit shifted out; Vy is not read. -/
def execShlVxVy (x _y : RegIdx) : State → Host.Outcome State Fault Refusal :=
  complete fun s => s.setRegAndFlag x (s.reg x <<< 1) (shiftedLeftFlag (s.reg x))

/-- RND Vx, kk (R186) with the entropy byte `rnd` given: `V[x] <- rnd & kk`. -/
def execRndWith (rnd : Byte) (x : RegIdx) (kk : Byte) : State → Host.Outcome State Fault Refusal :=
  complete fun s => s.setReg x (rnd &&& kk)

/-- RND Vx, kk (R186) with the entropy byte a free value, drawn anew each time (R185; log 3). -/
def execRndVxKk (x : RegIdx) (kk : Byte) : State → Host.Outcome State Fault Refusal :=
  complete fun s => { s.setReg x (Config.entropy s.draws &&& kk) with draws := s.draws + 1 }

end Sys2Proof.Machine
end

