-- ==== Sys2Proof/Machine/Operands.lean ====
section
/-! DEFINITION. The operand forms of the 34 instructions (30_encoding.md R93, 43_index_memory.md R200, 45_keys_timers.md R242,
R244): register pairs, the index base, the glyph address, the key a register names, the key a wait finds, decimal digits. -/

namespace Sys2Proof.Machine

/-- The base address of a memory access, `I` as an unbounded number (R64, R200). -/
def State.base (s : State) : Nat := s.i.toNat

/-- The target of JP V0, nnn (41_control_flow.md R148): `V[0] + nnn`, at most 0x10FE. -/
def indexedTarget (v0 : Byte) (nnn : Word) : Word := v0.setWidth 16 + nnn

/-- `(I + V[x]) mod 65536` (43_index_memory.md R202). -/
def indexSum (i : Word) (vx : Byte) : Word := i + vx.setWidth 16

/-- The address of the glyph of the low nibble of `vx`: digit * 5 (43_index_memory.md R203). -/
def glyphAddress (vx : Byte) : Word := BitVec.ofNat 16 ((vx &&& 0x0F#8).toNat * Config.glyphBytes)

/-- The key latch entry that SKP and SKNP test: the whole value of `V[x]`, not masked (45_keys_timers.md R242). -/
def keyIndex (vx : Byte) : Except Fault (Fin 16) :=
  if h : vx.toNat < 16 then .ok ⟨vx.toNat, h⟩ else .error (.invalidKeyIndex vx.toNat)

/-- `min { k | key[k] == true }`, none where no key is pressed (45_keys_timers.md R244). -/
def lowestKey (key : Vector Bool 16) : Option (Fin 16) := (List.finRange 16).find? fun k => key[k]

/-- Hundreds, tens and ones of a byte (43_index_memory.md R204, R205). -/
def bcdDigits (v : Byte) : List Byte :=
  [BitVec.ofNat 8 (v.toNat / 100), BitVec.ofNat 8 (v.toNat / 10 % 10), BitVec.ofNat 8 (v.toNat % 10)]

/-- The lowest address above 4095 among `base`, `base + 1`, ... once one of them is (20_memory.md R64). -/
def firstAddressOutside (base : Nat) : Nat := max base 4096

end Sys2Proof.Machine
end

