-- ==== Sys2Proof/Machine/ControlFlow.lean ====
section
/-! DEFINITION. The control-flow instructions (41_control_flow.md). Every rule runs with `pc` already at `a + 2`. -/

namespace Sys2Proof.Machine

/-- RET (R140): `pc <- Pop()`. -/
def execRet : State → Host.Outcome State Fault Refusal :=
  completeOrFault fun s =>
    match s.pop with
    | .error f => .error f
    | .ok (target, t) => .ok (t.setPc target)

/-- JP nnn (R141): `pc <- nnn`. -/
def execJpNnn (nnn : Word) : State → Host.Outcome State Fault Refusal :=
  complete fun s => s.setPc nnn

/-- CALL nnn (R142): `Push(pc)`, then `pc <- nnn`. -/
def execCallNnn (nnn : Word) : State → Host.Outcome State Fault Refusal :=
  completeOrFault fun s =>
    match s.push s.pc with
    | .error f => .error f
    | .ok t => .ok (t.setPc nnn)

/-- SE Vx, kk (R144). -/
def execSeVxKk (x : RegIdx) (kk : Byte) : State → Host.Outcome State Fault Refusal :=
  complete fun s => s.skipIf (s.reg x == kk)

/-- SNE Vx, kk (R145). -/
def execSneVxKk (x : RegIdx) (kk : Byte) : State → Host.Outcome State Fault Refusal :=
  complete fun s => s.skipIf (s.reg x != kk)

/-- SE Vx, Vy (R146). -/
def execSeVxVy (x y : RegIdx) : State → Host.Outcome State Fault Refusal :=
  complete fun s => s.skipIf (s.reg x == s.reg y)

/-- SNE Vx, Vy (R147). -/
def execSneVxVy (x y : RegIdx) : State → Host.Outcome State Fault Refusal :=
  complete fun s => s.skipIf (s.reg x != s.reg y)

/-- JP V0, nnn (R148): `pc <- V[0] + nnn`, not reduced modulo 4096. -/
def execJpV0Nnn (nnn : Word) : State → Host.Outcome State Fault Refusal :=
  complete fun s => s.setPc (indexedTarget (s.reg 0) nnn)

end Sys2Proof.Machine
end

