-- ==== Sys2Proof/Machine/Display.lean ====
section
/-! DEFINITION. The display instructions (44_display.md). -/

namespace Sys2Proof.Machine

/-- CLS (R220). -/
def execCls : State → Host.Outcome State Fault Refusal :=
  complete fun s => s.setDisplay Display.clear

/-- DRW Vx, Vy, n (R222): the `n` sprite bytes are read first, in rising order, so that a byte out of range voids the tick with
the info of R222; the coordinates are read before VF is written, and VF is written once, last (R129, R223). -/
def execDrwVxVyN (x y : RegIdx) (n : Nat) : State → Host.Outcome State Fault Refusal :=
  completeOrFault fun s =>
    match s.loadBytes s.base n with
    | .error f => .error f
    | .ok sprite =>
      let d := drawSprite (s.reg x).toNat (s.reg y).toNat sprite s.disp
      .ok ((s.setDisplay d.disp).setFlag (collisionFlag d.collision))

end Sys2Proof.Machine
end

