-- ==== Sys2Proof/Machine/IndexMemory.lean ====
section
/-! DEFINITION. The index register and memory instructions (43_index_memory.md). None of them changes `I` as a side effect of an
access (R206; log 8). -/

namespace Sys2Proof.Machine

/-- LD I, nnn (R201). -/
def execLdINnn (nnn : Word) : State → Host.Outcome State Fault Refusal :=
  complete fun s => s.setIndex nnn

/-- ADD I, Vx (R202): modulo 65536, VF unchanged. -/
def execAddIVx (x : RegIdx) : State → Host.Outcome State Fault Refusal :=
  complete fun s => s.setIndex (indexSum s.i (s.reg x))

/-- LD F, Vx (R203). -/
def execLdFVx (x : RegIdx) : State → Host.Outcome State Fault Refusal :=
  complete fun s => s.setIndex (glyphAddress (s.reg x))

/-- LD B, Vx (R204): hundreds, tens and ones at `I`, `I + 1`, `I + 2`. -/
def execLdBVx (x : RegIdx) : State → Host.Outcome State Fault Refusal :=
  completeOrFault fun s => s.storeBytes s.base (bcdDigits (s.reg x))

/-- LD [I], Vx (R208): V0 to Vx inclusive to `I` and up. -/
def execLdMemVx (x : RegIdx) : State → Host.Outcome State Fault Refusal :=
  completeOrFault fun s => s.storeBytes s.base (s.regsUpTo x)

/-- LD Vx, [I] (R209): V0 to Vx inclusive from `I` and up. -/
def execLdVxMem (x : RegIdx) : State → Host.Outcome State Fault Refusal :=
  completeOrFault fun s =>
    match s.loadBytes s.base (x.val + 1) with
    | .error f => .error f
    | .ok bs => .ok (s.setRegs bs)

end Sys2Proof.Machine
end

