-- ==== Sys2Proof/Machine/KeysTimers.lean ====
section
/-! DEFINITION. The key and timer instructions (45_keys_timers.md). -/

namespace Sys2Proof.Machine

/-- SKP Vx (R240). -/
def execSkpVx (x : RegIdx) : State → Host.Outcome State Fault Refusal :=
  completeOrFault fun s =>
    match keyIndex (s.reg x) with
    | .error f => .error f
    | .ok k => .ok (s.skipIf s.key[k])

/-- SKNP Vx (R241). -/
def execSknpVx (x : RegIdx) : State → Host.Outcome State Fault Refusal :=
  completeOrFault fun s =>
    match keyIndex (s.reg x) with
    | .error f => .error f
    | .ok k => .ok (s.skipIf (!s.key[k]))

/-- LD Vx, DT (R243). -/
def execLdVxDT (x : RegIdx) : State → Host.Outcome State Fault Refusal :=
  complete fun s => s.setReg x s.dt

/-- LD Vx, K (R244): the lowest pressed key; with none, pc back to this instruction and `wait_key` set (R124). -/
def execLdVxK (x : RegIdx) : State → Host.Outcome State Fault Refusal :=
  complete fun s =>
    match lowestKey s.key with
    | some k => s.setReg x (BitVec.ofNat 8 k.val)
    | none => (s.setPc (s.pc - 2)).setWait true

/-- LD DT, Vx (R245). -/
def execLdDTVx (x : RegIdx) : State → Host.Outcome State Fault Refusal :=
  complete fun s => s.setDelay (s.reg x)

/-- LD ST, Vx (R246). -/
def execLdSTVx (x : RegIdx) : State → Host.Outcome State Fault Refusal :=
  complete fun s => s.setSound (s.reg x)

end Sys2Proof.Machine
end

