-- ==== Sys2Proof/Machine/Step.lean ====
section
/-! DEFINITION. One step of the core: the command `tick` (40_execution_cycle.md R120), its entropy byte a free value (log 3), and
the placing of a word where the next tick fetches it. -/

namespace Sys2Proof.Machine

/-- One tick (R120). It answers a next state on every path: a fault is taken, not answered (R126). -/
def step (s : State) : Host.Outcome State Fault Refusal := tickBy exec s

/-- `s` with the word of an opcode-table row stored where the next tick fetches (log 16). -/
def State.withFetchWord (s : State) (nbits w : Nat) : State := s.placeWord (tableWord nbits w)

end Sys2Proof.Machine
end

