-- ==== Sys2Proof/Machine/Commands.lean ====
section
/-! DEFINITION. The host commands of the core (10_state.md R39): each one atomic transition of the whole state (00_scope.md R6),
and a run as the list of the commands the host issues (70_reset_and_hazards.md R312). -/

namespace Sys2Proof.Machine

/-- A command of the host, with its inputs (R39). -/
inductive Command where
  /-- `tick(rnd)` (R120): one instruction, with its entropy byte. -/
  | tick (rnd : Byte)
  /-- `tick_timer()` (R272). -/
  | tickTimer
  /-- `keypress(index, pressed)` (R276). -/
  | keypress (index : Nat) (pressed : Bool)
  /-- `load(bytes)` (R70). -/
  | load (bytes : List Byte)
  /-- `reset()` (R300). -/
  | reset
  /-- `get_display()` (R275). -/
  | getDisplay
  /-- `observe()` (R281). -/
  | observe
deriving DecidableEq, Repr

/-- The whole state of R38, and nothing else: what `observe` returns (R281). -/
structure Observation where
  v : Vector Byte 16
  i : Word
  pc : Word
  sp : Fin 17
  stack : Vector Word 16
  dt : Byte
  st : Byte
  key : Vector Bool 16
  disp : Display
  /-- The 4096 bytes, address 0 first. -/
  memory : List Byte
  waitKey : Bool
  fault : Option FaultRecord
deriving DecidableEq, Repr

/-- What a command returns to the host (R39). -/
inductive Response where
  /-- `tick`, `keypress` or `load` succeeded. -/
  | ok
  /-- `tick` returns the fault it latched, or the one latched before (R126, R128). -/
  | faulted (r : FaultRecord)
  /-- `keypress` or `load` returns its error, and no state changed (R262). -/
  | rejected (f : Fault)
  /-- The result of `tick_timer` (R273). -/
  | soundExpired (expired : Bool)
  /-- `reset` returns nothing (R301). -/
  | done
  /-- The 2048 pixels of `get_display`, row-major (R275). -/
  | display (pixels : List Bool)
  /-- The result of `observe`. -/
  | observed (o : Observation)
deriving DecidableEq, Repr

/-- The execution of an instruction in a tick whose entropy byte is `rnd`: only RND reads it (40_execution_cycle.md R130). -/
def execWith (rnd : Byte) : Instr → State → Host.Outcome State Fault Refusal
  | .rndVxKk x kk, s => execRndWith rnd x kk s
  | i, s => exec i s

/-- `tick(rnd)` (R120). -/
def tickWith (rnd : Byte) (s : State) : Host.Outcome State Fault Refusal := tickBy (execWith rnd) s

/-- What `tick` returns from the state it leaves: the latched fault, or ok (R120, R128). -/
def tickResponse (s : State) : Response :=
  match s.fault with
  | some r => .faulted r
  | none => .ok

/-- A counter that stays at 0 (60_exceptions.md R272). -/
def countDown (t : Byte) : Byte := if t = 0 then 0 else t - 1

/-- `tick_timer` on the state (R272). -/
def State.tickTimer (s : State) : State := { s with dt := countDown s.dt, st := countDown s.st }

/-- `sound_expired`: this `tick_timer` takes ST from 1 to 0 (R273). -/
def State.soundExpires (s : State) : Bool := s.st == 1

/-- `keypress(index, pressed)` (R276). -/
def State.keypress (index : Nat) (pressed : Bool) (s : State) : State × Response :=
  if h : index < 16 then ({ s with key := s.key.set index pressed }, .ok)
  else (s, .rejected (.invalidKeyIndex index))

/-- `load(bytes)` (R70, R71, R72). -/
def State.load (bytes : List Byte) (s : State) : State × Response :=
  if Config.romMax < bytes.length then (s, .rejected (.outOfRangeRomLoad bytes.length))
  else ({ s with mem := Memory.writeList s.font s.mem Config.romBase bytes }, .ok)

/-- `observe()` (R281). -/
def State.observation (s : State) : Observation where
  v := s.v
  i := s.i
  pc := s.pc
  sp := s.sp
  stack := s.stack
  dt := s.dt
  st := s.st
  key := s.key
  disp := s.disp
  memory := (List.range Config.memSize).map s.byteAt
  waitKey := s.waitKey
  fault := s.fault

/-- One command of the host (R39): the state after it, and what it returns. -/
def command (c : Command) (s : State) : Host.Outcome (State × Response) Fault Refusal :=
  match c with
  | .tick rnd =>
    match tickWith rnd s with
    | .next t => .next (t, tickResponse t)
    | .fault f => .fault f
    | .refused r => .refused r
  | .tickTimer => .next (s.tickTimer, .soundExpired s.soundExpires)
  | .keypress index pressed => .next (s.keypress index pressed)
  | .load bytes => .next (s.load bytes)
  | .reset => .next (s.resetFrom, .done)
  | .getDisplay => .next (s, .display s.disp.rowMajor)
  | .observe => .next (s, .observed s.observation)

/-- A run: the commands in the order the host issues them (00_scope.md R6), and what each returned. -/
def runCommands : List Command → State → Host.Outcome (State × List Response) Fault Refusal
  | [], s => .next (s, [])
  | c :: cs, s =>
    match command c s with
    | .fault f => .fault f
    | .refused r => .refused r
    | .next (t, response) =>
      match runCommands cs t with
      | .fault f => .fault f
      | .refused r => .refused r
      | .next (u, responses) => .next (u, response :: responses)

end Sys2Proof.Machine
end

