-- ==== Sys2Proof/Safety.lean ====
section
/-! DEFINITION. What counts as a safe run of the core, in the terms claims use: the faulted, parked and waiting states of
40_execution_cycle.md R131, the invariant of every reachable state, and the frame of an instruction (R125). -/

namespace Sys2Proof.Machine

/-- A run is faulted when the latch is set (R131): never a good final state. -/
def State.isFaulted (s : State) : Prop := s.fault ≠ none

/-- A run is parked when the word at `pc` is a jump to itself (R131).
DESIGN CHOICE (log 27): R131 does not say whether a faulted run can also be parked; here parked asks that no fault be latched, so the
two outcomes exclude each other. -/
def State.isParked (s : State) : Prop := s.fault = none ∧ s.fetchInstr = .ok (.jpNnn s.pc)

/-- What the latch says is true of the state it is latched in (R126, R260): the pc is the faulting instruction's, and the
recorded kind could be raised there. OutOfRangeRomLoad is never latched (R262). -/
def State.latchExplained (s : State) (r : FaultRecord) : Prop :=
  r.faultPc = s.pc ∧
  match r.kind with
  | .stackOverflow => s.sp.val = 16
  | .stackUnderflow => s.sp.val = 0
  | .unimplementedOpcode op => decodeByGroup op = none
  | .outOfRangeRomLoad _ => False
  | .invalidKeyIndex index => 16 ≤ index ∧ index ≤ 255
  | .addressOutOfRange addr => 4096 ≤ addr ∧ addr ≤ 65535

/-- The invariant of every state the core reaches from reset: memory in its canonical form, `pc` at most 0x10FE and every stack
slot at most 4096 (10_state.md R25), a set latch true of the state. -/
structure State.Inv (s : State) : Prop where
  memWf : Memory.wf s.font s.mem = true
  pcBound : s.pc.toNat ≤ 0x10FE
  slotBound : ∀ k : Fin 16, (s.stack[k]).toNat ≤ 4096
  latchTrue : ∀ r, s.fault = some r → s.latchExplained r

/-- Only general registers, `pc` and `wait_key` may differ; every byte of memory reads the same. -/
def KeepsAllButRegs (s t : State) : Prop :=
  t = { s with v := t.v, pc := t.pc, waitKey := t.waitKey } ∧ ∀ a, t.byteAt a = s.byteAt a

/-- Only `I`, `pc` and `wait_key` may differ; every byte of memory reads the same. -/
def KeepsAllButIndex (s t : State) : Prop :=
  t = { s with i := t.i, pc := t.pc, waitKey := t.waitKey } ∧ ∀ a, t.byteAt a = s.byteAt a

/-- Only memory, `pc` and `wait_key` may differ, and of memory only the `len` bytes from `base`. -/
def KeepsAllButBytes (base len : Nat) (s t : State) : Prop :=
  t = { s with mem := t.mem, pc := t.pc, waitKey := t.waitKey } ∧
  ∀ a, a < base ∨ base + len ≤ a → t.byteAt a = s.byteAt a

/-- Only the display, VF, `pc` and `wait_key` may differ; every byte of memory reads the same. -/
def KeepsAllButDisplayAndFlag (s t : State) : Prop :=
  t = { s with disp := t.disp, v := t.v, pc := t.pc, waitKey := t.waitKey } ∧
  (∀ k : RegIdx, k ≠ Config.flagReg → t.v[k] = s.v[k]) ∧ ∀ a, t.byteAt a = s.byteAt a

/-- The pc and `wait_key` of an instruction that neither jumps, skips nor waits (10_state.md R23, R124). -/
def AdvancesPc (s t : State) : Prop := t.pc = s.pc + 2 ∧ t.waitKey = false

/-- The registers an instruction names as written: its destination, VF as a flag (R125), or V0 to Vx. -/
def writesReg (i : Instr) (k : RegIdx) : Prop :=
  match i with
  | .ldVxKk x _ | .addVxKk x _ | .ldVxVy x _ | .orVxVy x _ | .andVxVy x _ | .xorVxVy x _ | .rndVxKk x _ => k = x
  | .addVxVy x _ | .subVxVy x _ | .shrVxVy x _ | .subnVxVy x _ | .shlVxVy x _ => k = x ∨ k = 15
  | .drwVxVyN _ _ _ => k = 15
  | .ldVxDT x | .ldVxK x => k = x
  | .ldVxMem x => k.val ≤ x.val
  | .cls | .ret | .jpNnn _ | .callNnn _ | .seVxKk _ _ | .sneVxKk _ _ | .seVxVy _ _ | .sneVxVy _ _ | .ldINnn _ | .jpV0Nnn _
  | .skpVx _ | .sknpVx _ | .ldDTVx _ | .ldSTVx _ | .addIVx _ | .ldFVx _ | .ldBVx _ | .ldMemVx _ => False

/-- Two states that differ at most in stack slots at `sp` and above (10_state.md R30). -/
def SameUpToStaleSlots (s t : State) : Prop :=
  t = { s with stack := t.stack } ∧ ∀ k : Fin 16, k.val < s.sp.val → t.stack[k] = s.stack[k]

/-- The instructions run one after another from `s`, each as if fetched, with no fault taken; none where one faults. -/
def execAll : List Instr → State → Option State
  | [], s => some s
  | i :: is, s =>
    match exec i s with
    | .next t => if t.fault = none then execAll is t else none
    | .fault _ => none
    | .refused _ => none

/-- The sprite pixel at display pixel `(px, py)` (44_display.md R221): the bit of the byte in row `(py - vy) mod 32` and column
`(px - vx) mod 64`, false outside the 8 columns and the rows of the sprite. -/
def spriteBit (vx vy : Nat) (sprite : List Byte) (px : Fin 64) (py : Fin 32) : Bool :=
  let c := (px.val + 64 - vx % 64) % 64
  let r := (py.val + 32 - vy % 32) % 32
  decide (c < 8) && (sprite.getD r 0).getLsbD (7 - c)

/-- The sprite bytes `I`, `I + 1`, ..., `I + n - 1` as memory holds them. -/
def State.spriteAt (s : State) (n : Nat) : List Byte := (List.range n).map fun k => s.byteAt (s.i.toNat + k)

/-- A flag-writing instruction with destination `x` answers a next state with this result and this flag: VF holds the flag, also
when it is the destination, and no other register changes. -/
def GivesResultAndFlag (i : Instr) (s : State) (x : RegIdx) (result flag : Nat) : Prop :=
  ∃ t, exec i s = .next t ∧ (x ≠ 15 → (t.v[x]).toNat = result) ∧ (t.v[15]).toNat = flag ∧
    (∀ k : RegIdx, k ≠ x → k ≠ 15 → t.v[k] = s.v[k]) ∧ AdvancesPc s t ∧ KeepsAllButRegs s t

/-- The illegal words as R98 lists them, group by group. -/
def illegalWord (op : Word) : Prop :=
  let g := op.toNat / 4096
  let n := op.toNat % 16
  let kk := op.toNat % 256
  (g = 0 ∧ op.toNat ≠ 0x00E0 ∧ op.toNat ≠ 0x00EE) ∨
  (g = 5 ∧ n ≠ 0) ∨
  (g = 8 ∧ (n = 8 ∨ n = 9 ∨ n = 10 ∨ n = 11 ∨ n = 12 ∨ n = 13 ∨ n = 15)) ∨
  (g = 9 ∧ n ≠ 0) ∨
  (g = 14 ∧ kk ≠ 0x9E ∧ kk ≠ 0xA1) ∨
  (g = 15 ∧ kk ≠ 0x07 ∧ kk ≠ 0x0A ∧ kk ≠ 0x15 ∧ kk ≠ 0x18 ∧ kk ≠ 0x1E ∧ kk ≠ 0x29 ∧ kk ≠ 0x33 ∧ kk ≠ 0x55 ∧ kk ≠ 0x65)

end Sys2Proof.Machine
end

