-- ==== Sys2Proof/Certificates/Slice0/Obligations.lean ====
section
/-! DEFINITION. The statements for the provers, from the numbered rules of spec/. Where a clause rests on a decision of the spec's
own, on its general knowledge, or on a choice of this model, its docstring names the log entry. -/

open Sys2Proof Sys2Proof.Machine

section

/-! ### Encoding (30_encoding.md) -/

/-- R92, R94, R96: decoding the word, or the bytes, of a well-formed instruction gives it back, every operand at every value its
field admits. The numbers are the spec's general knowledge (log 11). -/
def Obligations.DecodeOfEncodeIsTheInstruction : Prop :=
  ∀ (i : Instr) (rest : List Byte), i.wellFormed = true →
    decodeWord (encode i) = .ok i ∧ decodeBytes (encodeBytes i ++ rest) = .ok (i, rest)

/-- R94, R96: a word that decodes is the word of the instruction it decodes to, which is well formed (log 11). -/
def Obligations.EncodeOfDecodeIsTheWord : Prop :=
  ∀ (op : Word) (i : Instr), decodeWord op = .ok i → i.wellFormed = true ∧ encode i = op

/-- R94, R97, R98, R99: the words of R98's list, and no others, are rejected, each naming itself (strict decoding: log 10). -/
def Obligations.DecodeRejectsExactlyTheIllegalWords : Prop :=
  ∀ op : Word,
    (illegalWord op → decodeWord op = .error (.unimplementedOpcode op)) ∧
    (¬ illegalWord op → ∃ i, decodeWord op = .ok i)

/-- R96: a word that matches a row of the opcode map decodes to an instruction of that row, and a word that decodes matches its
instruction's row; so no word matches two rows (log 11). -/
def Obligations.DecodingAgreesWithTheOpcodeMap : Prop :=
  ∀ op : Word,
    (∀ r ∈ opcodeTable, r.matchesWord op = true → ∃ i, decodeWord op = .ok i ∧ opcodeRow i = r) ∧
    (∀ i, decodeWord op = .ok i → opcodeRow i ∈ opcodeTable ∧ (opcodeRow i).matchesWord op = true)

/-- R92, R96: some words written out bit by bit, one or more of each family of the table (log 11). -/
def Obligations.SpelledOutWordsDecode : Prop :=
  decodeWord 0b0000000011100000#16 = .ok .cls ∧
  decodeWord 0b0000000011101110#16 = .ok .ret ∧
  decodeWord 0b0010001100000000#16 = .ok (.callNnn 0x300) ∧
  decodeWord 0b0011101001000010#16 = .ok (.seVxKk 10 0x42) ∧
  decodeWord 0b0101000100100000#16 = .ok (.seVxVy 1 2) ∧
  decodeWord 0b0111010100100000#16 = .ok (.addVxKk 5 0x20) ∧
  decodeWord 0b1000000100100111#16 = .ok (.subnVxVy 1 2) ∧
  decodeWord 0b1010001011110000#16 = .ok (.ldINnn 0x2F0) ∧
  decodeWord 0b1100001100001111#16 = .ok (.rndVxKk 3 0x0F) ∧
  decodeWord 0b1101000100101111#16 = .ok (.drwVxVyN 1 2 15) ∧
  decodeWord 0b1110000110100001#16 = .ok (.sknpVx 1) ∧
  decodeWord 0b1111001001010101#16 = .ok (.ldMemVx 2) ∧
  decodeWord 0b0000000000000000#16 = .error (.unimplementedOpcode 0)

/-! ### The tick (40_execution_cycle.md) -/

/-- R120, R121, R122, R63: with no fault latched, a tick whose two bytes at `pc` decode to an instruction is the execution of that
instruction on the state the tick began with (`exec` itself advances `pc` and settles `wait_key`; log 12). -/
def Obligations.StepRunsTheDecodedInstruction : Prop :=
  ∀ (s : State) (i : Instr), s.fault = none → s.pc.toNat ≤ 4094 →
    decodeWord (wordOfBytes (s.byteAt s.pc.toNat) (s.byteAt (s.pc.toNat + 1))) = .ok i →
    step s = exec i s ∧ ∀ rnd, tickWith rnd s = execWith rnd i s

/-- R121: the fetch from 4095 faults with 4096, the fetch from above 4095 with its own address; the fault is taken, and nothing
but the latch changes (R126, the spec's decision D2: log 4; no wrap, D3: log 5). -/
def Obligations.FetchOutsideMemoryFaults : Prop :=
  ∀ s : State, s.fault = none →
    (s.pc.toNat = 4095 →
      step s = .next { s with fault := some { kind := .addressOutOfRange 4096, faultPc := s.pc } }) ∧
    (4095 < s.pc.toNat →
      step s = .next { s with fault := some { kind := .addressOutOfRange s.pc.toNat, faultPc := s.pc } })

/-- R98, R126: a tick that fetches an illegal word takes UnimplementedOpcode with that word, and nothing but the latch changes
(log 4, log 10). -/
def Obligations.IllegalWordFaults : Prop :=
  ∀ (s : State), s.fault = none → s.pc.toNat ≤ 4094 →
    let op := wordOfBytes (s.byteAt s.pc.toNat) (s.byteAt (s.pc.toNat + 1))
    illegalWord op →
    step s = .next { s with fault := some { kind := .unimplementedOpcode op, faultPc := s.pc } }

/-- R128, R266, R267: while the latch is set a tick changes no state, whatever its entropy byte, and returns the latched fault
again (the spec's decision D2: log 4). -/
def Obligations.LatchedTickChangesNothing : Prop :=
  ∀ (s : State) (r : FaultRecord), s.fault = some r →
    step s = .next s ∧ ∀ rnd, command (.tick rnd) s = .next (s, .faulted r)

/-- R126, R265: a tick that sets the latch changes nothing else, and records the address of its instruction (the spec's decision
D2: log 4). -/
def Obligations.FaultingTickIsVoid : Prop :=
  ∀ (s t : State) (r : FaultRecord), s.fault = none → step s = .next t → t.fault = some r →
    t = { s with fault := some r } ∧ r.faultPc = s.pc

/-- R39, R261: every tick and every command answers, from every state: no condition is silently ignored and none stops the model
(that a fault is a next state is this model's reading of R126: log 4). -/
def Obligations.EveryCommandAnswers : Prop :=
  (∀ s : State, ∃ t, step s = .next t) ∧
  (∀ (c : Command) (s : State), ∃ t response, command c s = .next (t, response))

/-- R127, R260: the one kind of fault each instruction can raise, and none for the others (the spec's decision D20: log 19). -/
def Obligations.EachInstructionRaisesOnlyItsOwnFault : Prop :=
  ∀ (i : Instr) (s t : State) (r : FaultRecord), s.fault = none → exec i s = .next t → t.fault = some r →
    match r.kind with
    | .stackUnderflow => i = .ret
    | .stackOverflow => ∃ nnn, i = .callNnn nnn
    | .invalidKeyIndex k => 15 < k ∧ ∃ x, i = .skpVx x ∨ i = .sknpVx x
    | .addressOutOfRange a => 4095 < a ∧ ((∃ x y n, i = .drwVxVyN x y n) ∨ ∃ x, i = .ldBVx x ∨ i = .ldMemVx x ∨ i = .ldVxMem x)
    | .unimplementedOpcode _ => False
    | .outOfRangeRomLoad _ => False

/-- R125, R21, R27: what every instruction leaves unchanged, register by register and byte by byte (the spec's decision D7: log 8).
The clause on `draws` is about this model's own counter (log 3), the one on `font` about the parameter FONT (R8, log 1), and the
last one, the latch as before or the only change, is the roll-back of R126 (the spec's decision D2: log 4). -/
def Obligations.FrameOfEveryInstruction : Prop :=
  ∀ (i : Instr) (s t : State), exec i s = .next t →
    (∀ k : RegIdx, ¬ writesReg i k → t.v[k] = s.v[k]) ∧
    ((∀ nnn, i ≠ .ldINnn nnn) → (∀ x, i ≠ .addIVx x) → (∀ x, i ≠ .ldFVx x) → t.i = s.i) ∧
    ((∀ nnn, i ≠ .callNnn nnn) → t.stack = s.stack ∧ (i ≠ .ret → t.sp = s.sp)) ∧
    ((∀ x, i ≠ .ldDTVx x) → t.dt = s.dt) ∧
    ((∀ x, i ≠ .ldSTVx x) → t.st = s.st) ∧
    t.key = s.key ∧
    (i ≠ .cls → (∀ x y n, i ≠ .drwVxVyN x y n) → t.disp = s.disp) ∧
    ((∀ x, i ≠ .ldBVx x) → (∀ x, i ≠ .ldMemVx x) → ∀ a, t.byteAt a = s.byteAt a) ∧
    ((∀ x kk, i ≠ .rndVxKk x kk) → t.draws = s.draws) ∧
    t.font = s.font ∧
    (t.fault = s.fault ∨ t = { s with fault := t.fault })

/-- R36, R124: after a tick that does not fault, `wait_key` is true exactly when the instruction was LD Vx, K and no key was
pressed (the spec's decision D14: log 12). -/
def Obligations.WaitKeyReportsAFruitlessWait : Prop :=
  ∀ s t : State, s.fault = none → step s = .next t → t.fault = none →
    (t.waitKey = true ↔ (∃ x, s.fetchInstr = .ok (.ldVxK x)) ∧ ∀ k : Fin 16, s.key[k] = false)

/-- R130, R9, R185: a tick with entropy byte `rnd` is the step, whatever the byte, unless the instruction is RND; and a step that
executes RND is the tick of its free draw, but for the model's own counter (log 3). -/
def Obligations.OnlyRndReadsTheEntropyByte : Prop :=
  ∀ (s : State),
    ((∀ x kk, s.fetchInstr ≠ .ok (.rndVxKk x kk)) → ∀ rnd, tickWith rnd s = step s) ∧
    (∀ x kk t, s.fault = none → s.fetchInstr = .ok (.rndVxKk x kk) → tickWith (Config.entropy s.draws) s = .next t →
      step s = .next { t with draws := s.draws + 1 })

/-! ### Control flow (41_control_flow.md, 10_state.md R28 to R30) -/

/-- R140, R30, R126: RET takes StackUnderflow on an empty stack, else pops the return address into `pc`, the slot keeping its
value (log 4, log 24). -/
def Obligations.ReturnPopsOrFaults : Prop :=
  ∀ s : State,
    (s.sp.val = 0 → exec .ret s = .next { s with fault := some { kind := .stackUnderflow, faultPc := s.pc } }) ∧
    (∀ h : s.sp.val ≠ 0, exec .ret s = .next { s with
        pc := s.stack[s.sp.val - 1]'(by omega), sp := ⟨s.sp.val - 1, by omega⟩, waitKey := false })

/-- R142, R126: CALL takes StackOverflow on a full stack, else pushes the address after it and jumps; no other slot changes
(log 4). -/
def Obligations.CallPushesOrFaults : Prop :=
  ∀ (s : State) (nnn : Word),
    (s.sp.val = 16 →
      exec (.callNnn nnn) s = .next { s with fault := some { kind := .stackOverflow, faultPc := s.pc } }) ∧
    (∀ h : s.sp.val < 16, ∃ t, exec (.callNnn nnn) s = .next t ∧
      t.pc = nnn ∧ t.sp.val = s.sp.val + 1 ∧ t.waitKey = false ∧
      t.stack[s.sp.val] = s.pc + 2 ∧ (∀ k : Fin 16, k.val ≠ s.sp.val → t.stack[k] = s.stack[k]) ∧
      t = { s with pc := t.pc, sp := t.sp, stack := t.stack, waitKey := t.waitKey } ∧
      ∀ a, t.byteAt a = s.byteAt a)

/-- R29, R30, R140, R142, R121, R124: Push and Pop, and that CALL uses the one and RET the other. That the popped slot keeps its
value is inferred (R30: log 24); that CALL and RET run on the state with `pc` advanced and `wait_key` cleared is where this model
settles R121 and R124 (log 12). -/
def Obligations.PushAndPopKeepTheStackDiscipline : Prop :=
  ∀ (s : State) (w : Word),
    (s.sp.val = 16 → s.push w = .error .stackOverflow) ∧
    (∀ h : s.sp.val < 16, ∃ t, s.push w = .ok t ∧ t.stack[s.sp.val] = w ∧ t.sp.val = s.sp.val + 1 ∧
      (∀ k : Fin 16, k.val ≠ s.sp.val → t.stack[k] = s.stack[k]) ∧ t = { s with stack := t.stack, sp := t.sp } ∧
      t.pop = .ok (w, { t with sp := s.sp })) ∧
    (s.sp.val = 0 → s.pop = .error .stackUnderflow) ∧
    (∀ h : s.sp.val ≠ 0, ∃ t, s.pop = .ok (s.stack[s.sp.val - 1]'(by omega), t) ∧ t.sp.val + 1 = s.sp.val ∧
      t = { s with sp := t.sp }) ∧
    (∀ nnn t, s.advance.push (s.pc + 2) = .ok t → exec (.callNnn nnn) s = .next (t.setPc nnn)) ∧
    (∀ target t, s.advance.pop = .ok (target, t) → exec .ret s = .next (t.setPc target))

/-- R29, R140, R142 and 90_conflicts.md C4: calls nested as deep as the stack has room, and then as many returns, succeed, and end
after the first CALL with the same depth, the same registers and the same memory. -/
def Obligations.NestedCallsUnwind : Prop :=
  ∀ (targets : List Word) (s : State), s.fault = none → s.sp.val + targets.length ≤ 16 →
    ∃ t u, execAll (targets.map .callNnn) s = some t ∧ t.sp.val = s.sp.val + targets.length ∧
      execAll (List.replicate targets.length .ret) t = some u ∧
      u.pc = (if targets = [] then s.pc else s.pc + 2) ∧
      u = { s with pc := u.pc, stack := u.stack, waitKey := u.waitKey } ∧
      ∀ k : Fin 16, k.val < s.sp.val → u.stack[k] = s.stack[k]

/-- R141, R148, R93: JP nnn puts the 12-bit address into `pc`, JP V0, nnn the unreduced sum of V0 and the address; nothing else
changes. -/
def Obligations.JumpsReplaceThePc : Prop :=
  ∀ (s : State) (nnn : Word), nnn.toNat < 4096 →
    exec (.jpNnn nnn) s = .next { s with pc := nnn, waitKey := false } ∧
    ∃ t, exec (.jpV0Nnn nnn) s = .next t ∧ t.pc.toNat = (s.v[0]).toNat + nnn.toNat ∧ t.waitKey = false ∧
      t = { s with pc := t.pc, waitKey := t.waitKey } ∧ ∀ a, t.byteAt a = s.byteAt a

/-- R143 to R147: each skip adds 2 to the advanced `pc` exactly when its condition holds, and changes nothing else. -/
def Obligations.SkipsPassOverOneWord : Prop :=
  ∀ (s : State) (x y : RegIdx) (kk : Byte),
    exec (.seVxKk x kk) s = .next { s with pc := if s.v[x] = kk then s.pc + 4 else s.pc + 2, waitKey := false } ∧
    exec (.sneVxKk x kk) s = .next { s with pc := if s.v[x] = kk then s.pc + 2 else s.pc + 4, waitKey := false } ∧
    exec (.seVxVy x y) s = .next { s with pc := if s.v[x] = s.v[y] then s.pc + 4 else s.pc + 2, waitKey := false } ∧
    exec (.sneVxVy x y) s = .next { s with pc := if s.v[x] = s.v[y] then s.pc + 2 else s.pc + 4, waitKey := false }

/-- R131, R141: a parked core stays as it is at every tick, but for a `wait_key` left by an earlier wait (that bit: log 12; parked
asks that no fault be latched: log 27). -/
def Obligations.ParkedCoreStaysParked : Prop :=
  ∀ s : State, s.isParked → step s = .next { s with waitKey := false } ∧ ({ s with waitKey := false } : State).isParked

/-! ### Register and arithmetic (42_alu.md) -/

/-- R171 to R176: the instructions that write one register and no flag: the value, and that nothing else changes, VF included
unless it is the destination. -/
def Obligations.PlainRegisterWrites : Prop :=
  ∀ (s : State) (x y : RegIdx) (kk : Byte),
    exec (.ldVxKk x kk) s = .next { s with v := s.v.set x kk, pc := s.pc + 2, waitKey := false } ∧
    (∃ t, exec (.addVxKk x kk) s = .next t ∧ (t.v[x]).toNat = ((s.v[x]).toNat + kk.toNat) % 256 ∧
      (∀ k : RegIdx, k ≠ x → t.v[k] = s.v[k]) ∧ AdvancesPc s t ∧ KeepsAllButRegs s t) ∧
    exec (.ldVxVy x y) s = .next { s with v := s.v.set x s.v[y], pc := s.pc + 2, waitKey := false } ∧
    exec (.orVxVy x y) s = .next { s with v := s.v.set x (s.v[x] ||| s.v[y]), pc := s.pc + 2, waitKey := false } ∧
    exec (.andVxVy x y) s = .next { s with v := s.v.set x (s.v[x] &&& s.v[y]), pc := s.pc + 2, waitKey := false } ∧
    exec (.xorVxVy x y) s = .next { s with v := s.v.set x (s.v[x] ^^^ s.v[y]), pc := s.pc + 2, waitKey := false }

/-- R179 to R183, R177, R170, R129: result modulo 256 and flag of the five flag-writing instructions. That the flag survives when
`x` is 15 is the spec's decision D6 (log 7); the frame is its decision D7 (log 8). -/
def Obligations.FlagWritingArithmetic : Prop :=
  ∀ (s : State) (x y : RegIdx),
    let vx := (s.v[x]).toNat
    let vy := (s.v[y]).toNat
    GivesResultAndFlag (.addVxVy x y) s x ((vx + vy) % 256) (if vx + vy > 255 then 1 else 0) ∧
    GivesResultAndFlag (.subVxVy x y) s x (if vx < vy then vx + 256 - vy else vx - vy) (if vx ≥ vy then 1 else 0) ∧
    GivesResultAndFlag (.shrVxVy x y) s x (vx / 2) (vx % 2) ∧
    GivesResultAndFlag (.subnVxVy x y) s x (if vy < vx then vy + 256 - vx else vy - vx) (if vy ≥ vx then 1 else 0) ∧
    GivesResultAndFlag (.shlVxVy x y) s x ((vx * 2) % 256) (vx / 128)

/-- R177, R223: VF after the six instructions that write it as a flag. For DRW the collision is read off the display: some pixel
set before is clear after. -/
def Obligations.FlagsAreCarryBorrowShiftAndCollision : Prop :=
  ∀ (s t : State) (x y : RegIdx),
    let vx := (s.v[x]).toNat
    let vy := (s.v[y]).toNat
    (exec (.addVxVy x y) s = .next t → (t.v[15]).toNat = if vx + vy > 255 then 1 else 0) ∧
    (exec (.subVxVy x y) s = .next t → (t.v[15]).toNat = if vx ≥ vy then 1 else 0) ∧
    (exec (.subnVxVy x y) s = .next t → (t.v[15]).toNat = if vy ≥ vx then 1 else 0) ∧
    (exec (.shrVxVy x y) s = .next t → (t.v[15]).toNat = if (s.v[x]).getLsbD 0 then 1 else 0) ∧
    (exec (.shlVxVy x y) s = .next t → (t.v[15]).toNat = if (s.v[x]).getLsbD 7 then 1 else 0) ∧
    (∀ n, n < 16 → s.fault = none → exec (.drwVxVyN x y n) s = .next t → t.fault = none →
      (((∃ px py, Display.pixel s.disp px py = true ∧ Display.pixel t.disp px py = false) → (t.v[15]).toNat = 1) ∧
       ((¬ ∃ px py, Display.pixel s.disp px py = true ∧ Display.pixel t.disp px py = false) → (t.v[15]).toNat = 0)))

/-- R186, R185: RND writes the entropy byte masked by `kk`: for every byte given to the tick, and in a step for the free draw
(log 3); a bit that is 0 in `kk` is 0 in the result. -/
def Obligations.RandomByteIsMasked : Prop :=
  ∀ (s : State) (x : RegIdx) (kk rnd : Byte),
    execWith rnd (.rndVxKk x kk) s = .next { s with v := s.v.set x (rnd &&& kk), pc := s.pc + 2, waitKey := false } ∧
    (∃ t, exec (.rndVxKk x kk) s = .next t ∧ t.v[x] = Config.entropy s.draws &&& kk ∧ t.draws = s.draws + 1 ∧
      (∀ k : Nat, kk.getLsbD k = false → (t.v[x]).getLsbD k = false) ∧
      (∀ k : RegIdx, k ≠ x → t.v[k] = s.v[k]) ∧ AdvancesPc s t ∧ KeepsAllButRegs s { t with draws := s.draws })

/-! ### Index register and memory (43_index_memory.md) -/

/-- R201, R202, R203: the three writes of `I`; VF and all else unchanged (R125, the spec's decision D7: log 8). -/
def Obligations.IndexRegisterWrites : Prop :=
  ∀ (s : State) (x : RegIdx) (nnn : Word),
    exec (.ldINnn nnn) s = .next { s with i := nnn, pc := s.pc + 2, waitKey := false } ∧
    (∃ t, exec (.addIVx x) s = .next t ∧ t.i.toNat = (s.i.toNat + (s.v[x]).toNat) % 65536 ∧
      AdvancesPc s t ∧ KeepsAllButIndex s t) ∧
    (∃ t, exec (.ldFVx x) s = .next t ∧ t.i.toNat = ((s.v[x]).toNat % 16) * 5 ∧ AdvancesPc s t ∧ KeepsAllButIndex s t)

/-- R204, R205, R206, R64, R126: LD B, Vx stores three digits that make up Vx at `I`, `I + 1`, `I + 2` and nothing else, or takes
AddressOutOfRange with max(I, 4096) and writes nothing (log 4, log 5). -/
def Obligations.BcdStoreWritesThreeDigits : Prop :=
  ∀ (s : State) (x : RegIdx), Memory.wf s.font s.mem = true →
    (s.i.toNat + 2 ≤ 4095 → ∃ t, exec (.ldBVx x) s = .next t ∧
      (t.byteAt s.i.toNat).toNat = (s.v[x]).toNat / 100 ∧
      (t.byteAt (s.i.toNat + 1)).toNat = (s.v[x]).toNat / 10 % 10 ∧
      (t.byteAt (s.i.toNat + 2)).toNat = (s.v[x]).toNat % 10 ∧
      100 * (t.byteAt s.i.toNat).toNat + 10 * (t.byteAt (s.i.toNat + 1)).toNat + (t.byteAt (s.i.toNat + 2)).toNat
        = (s.v[x]).toNat ∧
      AdvancesPc s t ∧ KeepsAllButBytes s.i.toNat 3 s t) ∧
    (4095 < s.i.toNat + 2 → exec (.ldBVx x) s = .next
      { s with fault := some { kind := .addressOutOfRange (max s.i.toNat 4096), faultPc := s.pc } })

/-- R208, R207, R206, R64, R126: LD [I], Vx stores V0 to Vx inclusive, register `k` at `I + k`, and nothing else, or takes
AddressOutOfRange with max(I, 4096) and writes nothing (log 4, log 5, log 8). -/
def Obligations.RegisterDumpStoresV0ToVx : Prop :=
  ∀ (s : State) (x : RegIdx), Memory.wf s.font s.mem = true →
    (s.i.toNat + x.val ≤ 4095 → ∃ t, exec (.ldMemVx x) s = .next t ∧
      (∀ k : RegIdx, k.val ≤ x.val → t.byteAt (s.i.toNat + k.val) = s.v[k]) ∧
      AdvancesPc s t ∧ KeepsAllButBytes s.i.toNat (x.val + 1) s t) ∧
    (4095 < s.i.toNat + x.val → exec (.ldMemVx x) s = .next
      { s with fault := some { kind := .addressOutOfRange (max s.i.toNat 4096), faultPc := s.pc } })

/-- R209, R207, R206, R64, R126: LD Vx, [I] loads V0 to Vx inclusive, register `k` from `I + k`, and nothing else, or takes
AddressOutOfRange with max(I, 4096) and changes no register (log 4, log 5, log 8). -/
def Obligations.RegisterLoadReadsV0ToVx : Prop :=
  ∀ (s : State) (x : RegIdx),
    (s.i.toNat + x.val ≤ 4095 → ∃ t, exec (.ldVxMem x) s = .next t ∧
      (∀ k : RegIdx, k.val ≤ x.val → t.v[k] = s.byteAt (s.i.toNat + k.val)) ∧
      (∀ k : RegIdx, x.val < k.val → t.v[k] = s.v[k]) ∧ AdvancesPc s t ∧ KeepsAllButRegs s t) ∧
    (4095 < s.i.toNat + x.val → exec (.ldVxMem x) s = .next
      { s with fault := some { kind := .addressOutOfRange (max s.i.toNat 4096), faultPc := s.pc } })

/-- R207: the registers a dump stored come back by a load with the same `x` and `I`, whatever the registers were in between; the
others, and `I`, stay. -/
def Obligations.DumpThenLoadRestoresTheRegisters : Prop :=
  ∀ (s t : State) (x : RegIdx) (v : Vector Byte 16), Memory.wf s.font s.mem = true → s.i.toNat + x.val ≤ 4095 →
    exec (.ldMemVx x) s = .next t →
    ∃ u, exec (.ldVxMem x) { t with v := v } = .next u ∧ u.i = s.i ∧
      ∀ k : RegIdx, u.v[k] = if k.val ≤ x.val then s.v[k] else v[k]

/-- R76, R305, R208: what LD [I], Vx stores at the address the next tick fetches from is the word that tick fetches. -/
def Obligations.StoredWordIsFetchedNext : Prop :=
  ∀ (s t : State) (x : RegIdx), Memory.wf s.font s.mem = true → 1 ≤ x.val → s.i.toNat + x.val ≤ 4095 → s.i = s.pc + 2 →
    exec (.ldMemVx x) s = .next t → t.fetchWord = .ok (wordOfBytes s.v[0] s.v[1])

/-! ### Display (44_display.md) -/

/-- R220: CLS makes every pixel false and changes nothing else. -/
def Obligations.ClearScreenClearsEveryPixel : Prop :=
  ∀ s : State, ∃ t, exec .cls s = .next t ∧ (∀ px py, Display.pixel t.disp px py = false) ∧ AdvancesPc s t ∧
    t = { s with disp := t.disp, pc := t.pc, waitKey := t.waitKey } ∧ ∀ a, t.byteAt a = s.byteAt a

/-- R221, R222, R223, R224, R225: DRW with all its rows in memory XORs the sprite onto the display, pixel by pixel with both
coordinates wrapping, sets VF to 1 exactly when a set sprite bit meets a set pixel, and changes nothing else; with `n = 0` it
reads no memory and clears VF. The operands are read before VF is written (D6: log 7). -/
def Obligations.DrawXorsTheSprite : Prop :=
  ∀ (s : State) (x y : RegIdx) (n : Nat), n < 16 → (n = 0 ∨ s.i.toNat + n ≤ 4096) →
    let bit := spriteBit (s.v[x]).toNat (s.v[y]).toNat (s.spriteAt n)
    ∃ t, exec (.drwVxVyN x y n) s = .next t ∧
      (∀ px py, Display.pixel t.disp px py = (Display.pixel s.disp px py ^^ bit px py)) ∧
      ((∃ px py, bit px py = true ∧ Display.pixel s.disp px py = true) → t.v[15] = 1) ∧
      ((¬ ∃ px py, bit px py = true ∧ Display.pixel s.disp px py = true) → t.v[15] = 0) ∧
      AdvancesPc s t ∧ KeepsAllButDisplayAndFlag s t

/-- R222, R64, R126: DRW with a row outside memory takes AddressOutOfRange with max(I, 4096), and neither the display nor VF
changes (log 4, log 5). -/
def Obligations.DrawOutsideMemoryFaults : Prop :=
  ∀ (s : State) (x y : RegIdx) (n : Nat), n ≠ 0 → 4096 < s.i.toNat + n →
    exec (.drwVxVyN x y n) s = .next
      { s with fault := some { kind := .addressOutOfRange (max s.i.toNat 4096), faultPc := s.pc } }

/-- R226: the same sprite drawn twice at the same coordinates restores the display, whatever happens in between, as long as `I`,
V[x], V[y], the sprite's bytes and the display are the same at the second draw (the sprite's height at most 15: R93). -/
def Obligations.DrawingTwiceRestoresTheDisplay : Prop :=
  ∀ (s t s' u : State) (x y : RegIdx) (n : Nat), n < 16 → exec (.drwVxVyN x y n) s = .next t →
    s'.disp = t.disp → s'.i = s.i → s'.v[x] = s.v[x] → s'.v[y] = s.v[y] → s'.spriteAt n = s.spriteAt n →
    exec (.drwVxVyN x y n) s' = .next u → u.disp = s.disp

/-- R227 and 90_conflicts.md C7: the second of two identical draws reports a collision exactly when some pixel the sprite's set
bits map to was clear before the first, and else clears VF. -/
def Obligations.SecondDrawCollidesWhereTheFirstDrewOnClear : Prop :=
  ∀ (s t s' u : State) (x y : RegIdx) (n : Nat), n < 16 → (n = 0 ∨ s.i.toNat + n ≤ 4096) → exec (.drwVxVyN x y n) s = .next t →
    s'.disp = t.disp → s'.i = s.i → s'.v[x] = s.v[x] → s'.v[y] = s.v[y] → s'.spriteAt n = s.spriteAt n →
    exec (.drwVxVyN x y n) s' = .next u →
    let bit := spriteBit (s.v[x]).toNat (s.v[y]).toNat (s.spriteAt n)
    ((∃ px py, bit px py = true ∧ Display.pixel s.disp px py = false) → u.v[15] = 1) ∧
    ((¬ ∃ px py, bit px py = true ∧ Display.pixel s.disp px py = false) → u.v[15] = 0)

/-- R34, R33: no instruction but DRW reads the display, and none but CLS and DRW writes it: with another display under it, any
other instruction gives the same next state, that display unchanged. -/
def Obligations.OnlyClsAndDrwTouchTheDisplay : Prop :=
  ∀ (i : Instr) (s : State) (d : Display), (∀ x y n, i ≠ .drwVxVyN x y n) →
    ∃ t, exec i s = .next t ∧
      exec i { s with disp := d } = .next { t with disp := if i = .cls then t.disp else d } ∧ (i ≠ .cls → t.disp = s.disp)

/-! ### Keys and timers (45_keys_timers.md, 60_exceptions.md) -/

/-- R240, R241, R242, R143: SKP and SKNP test the key that the whole of Vx names, and take InvalidKeyIndex where it names none (the
spec's decision D8: log 9; log 4). -/
def Obligations.KeySkipsTestTheNamedKey : Prop :=
  ∀ (s : State) (x : RegIdx),
    (∀ h : (s.v[x]).toNat < 16,
      exec (.skpVx x) s = .next
        { s with pc := if s.key[(s.v[x]).toNat] = true then s.pc + 4 else s.pc + 2, waitKey := false } ∧
      exec (.sknpVx x) s = .next
        { s with pc := if s.key[(s.v[x]).toNat] = true then s.pc + 2 else s.pc + 4, waitKey := false }) ∧
    (15 < (s.v[x]).toNat →
      exec (.skpVx x) s = .next
        { s with fault := some { kind := .invalidKeyIndex (s.v[x]).toNat, faultPc := s.pc } } ∧
      exec (.sknpVx x) s = .next
        { s with fault := some { kind := .invalidKeyIndex (s.v[x]).toNat, faultPc := s.pc } })

/-- R243, R245, R246: the instructions that read DT or set DT or ST, and that nothing else changes. -/
def Obligations.TimerInstructionsMoveOneByte : Prop :=
  ∀ (s : State) (x : RegIdx),
    exec (.ldVxDT x) s = .next { s with v := s.v.set x s.dt, pc := s.pc + 2, waitKey := false } ∧
    exec (.ldDTVx x) s = .next { s with dt := s.v[x], pc := s.pc + 2, waitKey := false } ∧
    exec (.ldSTVx x) s = .next { s with st := s.v[x], pc := s.pc + 2, waitKey := false }

/-- R244, R124: LD Vx, K stores the lowest pressed key, or, with none pressed, leaves `pc` at itself and sets `wait_key`
(log 12). -/
def Obligations.KeyWaitTakesTheLowestKey : Prop :=
  ∀ (s : State) (x : RegIdx),
    (∀ k : Fin 16, s.key[k] = true → (∀ j : Fin 16, j < k → s.key[j] = false) →
      exec (.ldVxK x) s = .next { s with v := s.v.set x (BitVec.ofNat 8 k.val), pc := s.pc + 2, waitKey := false }) ∧
    ((∀ k : Fin 16, s.key[k] = false) → exec (.ldVxK x) s = .next { s with waitKey := true })

/-- R277: a key-latch entry changes only by a `keypress` to it or by `reset`, and a press and a release between two ticks leave no
trace. -/
def Obligations.KeyLatchHoldsLevels : Prop :=
  (∀ (c : Command) (s t : State) (response : Response) (k : Fin 16), command c s = .next (t, response) →
    t.key[k] ≠ s.key[k] → c = .reset ∨ ∃ pressed, c = .keypress k.val pressed) ∧
  (∀ (s : State) (k : Fin 16), s.key[k] = false →
    runCommands [.keypress k.val true, .keypress k.val false] s = .next (s, [.ok, .ok]))

/-- R247, R123: a timer changes only by its LD instruction, by `tick_timer` or by `reset`, and `tick_timer` executes no
instruction. -/
def Obligations.TimersChangeOnlyByTheirWriters : Prop :=
  (∀ (c : Command) (s t : State) (response : Response), command c s = .next (t, response) →
    (t.dt ≠ s.dt → c = .tickTimer ∨ c = .reset ∨
      ∃ rnd x, c = .tick rnd ∧ s.fetchInstr = .ok (.ldDTVx x) ∧ t.dt = s.v[x]) ∧
    (t.st ≠ s.st → c = .tickTimer ∨ c = .reset ∨
      ∃ rnd x, c = .tick rnd ∧ s.fetchInstr = .ok (.ldSTVx x) ∧ t.st = s.v[x])) ∧
  (∀ (s t : State) (response : Response), command .tickTimer s = .next (t, response) → t = { s with dt := t.dt, st := t.st })

/-- R272, R273: `tick_timer` takes one from each nonzero timer, leaves a timer at 0 there, reports whether ST was 1, and changes
nothing else (the report is the spec's decision D18: log 19). -/
def Obligations.TickTimerDecrementsNonzeroTimers : Prop :=
  ∀ s : State, ∃ t, command .tickTimer s = .next (t, .soundExpired (decide (s.st.toNat = 1))) ∧
    t.dt.toNat = s.dt.toNat - 1 ∧ t.st.toNat = s.st.toNat - 1 ∧ t = { s with dt := t.dt, st := t.st }

/-- R272, R273: `n` commands `tick_timer` leave each timer at its value less `n`, never below 0, and report the expiry of the
sound exactly once, at the one that takes ST from 1 to 0, if they get there (the report is the spec's decision D18: log 19). -/
def Obligations.TimersReachZeroAndStay : Prop :=
  ∀ (n : Nat) (s : State), ∃ t, runCommands (List.replicate n .tickTimer) s =
      .next (t, (List.range n).map fun k => .soundExpired (decide (k + 1 = s.st.toNat))) ∧
    t.dt.toNat = s.dt.toNat - n ∧ t.st.toNat = s.st.toNat - n

/-! ### The other host commands -/

/-- R276, R262: `keypress` sets the one entry it names, or rejects an index above 15 and changes nothing (that a rejected command
changes nothing is the spec's decision D15: log 13). -/
def Obligations.KeypressSetsOneEntry : Prop :=
  ∀ (s : State) (index : Nat) (pressed : Bool),
    (∀ h : index < 16, ∃ t, command (.keypress index pressed) s = .next (t, .ok) ∧ t.key[index] = pressed ∧
      (∀ k : Fin 16, k.val ≠ index → t.key[k] = s.key[k]) ∧ t = { s with key := t.key }) ∧
    (15 < index → command (.keypress index pressed) s = .next (s, .rejected (.invalidKeyIndex index)))

/-- R70: `load` copies the bytes to 0x200 and up and leaves every other byte, or, above 3584 bytes, writes nothing and returns its
error; nothing but memory changes (R72, R71, the spec's decisions D16 and D15: log 13, log 14). -/
def Obligations.LoadCopiesTheRom : Prop :=
  ∀ (s : State) (bytes : List Byte), Memory.wf s.font s.mem = true →
    (bytes.length ≤ 3584 → ∃ t, command (.load bytes) s = .next (t, .ok) ∧
      (∀ k (h : k < bytes.length), t.byteAt (0x200 + k) = bytes[k]) ∧
      (∀ a, a < 0x200 ∨ 0x200 + bytes.length ≤ a → t.byteAt a = s.byteAt a) ∧ t = { s with mem := t.mem }) ∧
    (3584 < bytes.length → command (.load bytes) s = .next (s, .rejected (.outOfRangeRomLoad bytes.length)))

/-- R300, R40, R41: `reset` gives every piece of state its value of R40, from every state, FONT re-burned as it is. The zeros are
the spec's decision D5 (log 2), the cleared latch its D2 (log 4); that `draws` is kept is this model's choice (log 25). -/
def Obligations.ResetRestoresEveryPieceOfState : Prop :=
  ∀ s : State, ∃ t, command .reset s = .next (t, .done) ∧
    (∀ k : RegIdx, t.v[k] = 0) ∧ t.i = 0 ∧ t.pc = 0x200 ∧ t.sp = 0 ∧ (∀ k : Fin 16, t.stack[k] = 0) ∧ t.dt = 0 ∧ t.st = 0 ∧
    (∀ k : Fin 16, t.key[k] = false) ∧ (∀ px py, Display.pixel t.disp px py = false) ∧
    (∀ a (h : a < 80), t.byteAt a = s.font[a]) ∧ (∀ a, 80 ≤ a → t.byteAt a = 0) ∧
    t.waitKey = false ∧ t.fault = none ∧ t.font = s.font ∧ t.draws = s.draws ∧
    State.reset = { t with font := State.reset.font, draws := State.reset.draws }

/-- R275: `get_display` returns the 2048 pixels, element `x + 64 * y` being `disp[x][y]`, and changes nothing. -/
def Obligations.GetDisplayIsRowMajor : Prop :=
  ∀ s : State, ∃ pixels, command .getDisplay s = .next (s, .display pixels) ∧ pixels.length = 2048 ∧
    ∀ (x : Fin 64) (y : Fin 32), pixels[x.val + 64 * y.val]? = some (Display.pixel s.disp x y)

/-- R281, R38: `observe` returns the state of R38 with its 4096 bytes, and changes nothing (the spec's decision D22: log 21). -/
def Obligations.ObserveReturnsTheWholeState : Prop :=
  ∀ s : State, ∃ o, command .observe s = .next (s, .observed o) ∧ o.v = s.v ∧ o.i = s.i ∧ o.pc = s.pc ∧ o.sp = s.sp ∧
    o.stack = s.stack ∧ o.dt = s.dt ∧ o.st = s.st ∧ o.key = s.key ∧ o.disp = s.disp ∧ o.waitKey = s.waitKey ∧
    o.fault = s.fault ∧ o.memory.length = 4096 ∧ ∀ a, a < 4096 → o.memory[a]? = some (s.byteAt a)

/-- R302, R70, R63: after `reset` and `load`, the first tick fetches from 0x200 the big-endian word of the ROM's first two bytes. -/
def Obligations.LoadedRomIsFetchedFromTheEntry : Prop :=
  ∀ (s : State) (hi lo : Byte) (rest : List Byte), rest.length ≤ 3582 →
    ∃ t, runCommands [.reset, .load (hi :: lo :: rest)] s = .next (t, [.done, .ok]) ∧ t.pc = 0x200 ∧ t.fault = none ∧
      t.fetchWord = .ok (wordOfBytes hi lo)

/-- R301, R98: with no program loaded, the first tick after `reset` fetches the zero word at 0x200 and takes
UnimplementedOpcode(0x0000) (log 4, log 10). -/
def Obligations.FirstTickWithoutRomFaults : Prop :=
  ∀ (s : State) (rnd : Byte), ∃ t, runCommands [.reset, .tick rnd] s =
      .next (t, [.done, .faulted { kind := .unimplementedOpcode 0, faultPc := 0x200 }]) ∧
    t = { s.resetFrom with fault := some { kind := .unimplementedOpcode 0, faultPc := 0x200 } }

/-! ### Invariants -/

/-- R40: the state after reset meets the invariant. -/
def Obligations.ResetStateMeetsTheInvariant : Prop := State.reset.Inv

/-- R25, R64, R260: from every state that meets the invariant, a step gives a state that meets it: memory stays in its canonical
form, `pc` stays at most 0x10FE, every stack slot at most 4096, and a latched fault stays true of the state (the latch: log 4; the form: log 18). -/
def Obligations.StepKeepsTheInvariant : Prop :=
  ∀ s t : State, s.Inv → step s = .next t → t.Inv

/-- R25, R39: every host command keeps the invariant too, `load`, `keypress` and a tick with any entropy byte among them. -/
def Obligations.CommandsKeepTheInvariant : Prop :=
  ∀ (c : Command) (s t : State) (response : Response), s.Inv → command c s = .next (t, response) → t.Inv

/-- R25: no state reached from reset, whatever FONT, by whatever commands, has a pc above 0x10FE, so no pc wraps at 65536. -/
def Obligations.ReachablePcNeverExceeds0x10FE : Prop :=
  ∀ (font : Font) (commands : List Command) (t : State) (responses : List Response),
    runCommands commands { State.reset with font := font } = .next (t, responses) → t.pc.toNat ≤ 0x10FE

/-- R60, R67: memory in canonical form is determined by what its addresses read as, so equal memories are equal data (the form
itself is this model's choice: log 18). -/
def Obligations.CanonicalMemoryIsDeterminedByItsBytes : Prop :=
  ∀ s t : State, s.font = t.font → Memory.wf s.font s.mem = true → Memory.wf t.font t.mem = true →
    (∀ a, a < 4096 → s.byteAt a = t.byteAt a) → s.mem = t.mem

/-- R30: no instruction observes a stack slot at `sp` or above: two states that differ only there step to two such states. -/
def Obligations.StaleStackSlotsAreNeverObserved : Prop :=
  ∀ s t s' : State, SameUpToStaleSlots s t → step s = .next s' →
    ∃ t', step t = .next t' ∧ SameUpToStaleSlots s' t'

end
end

