-- ==== Sys2Proof/Laws/State.lean ====
section
/-! SUPPORT. One lemma per field of State per named update, each true by rfl (or by the one case of a skip), so that no later
proof unfolds a record update. -/

namespace Sys2Proof.Machine

section
variable (s : State)

/-! `State.setByte` -/
@[simp] theorem State.setByte_v (a : Nat) (b : Byte) : (State.setByte a b s).v = s.v := rfl
@[simp] theorem State.setByte_i (a : Nat) (b : Byte) : (State.setByte a b s).i = s.i := rfl
@[simp] theorem State.setByte_pc (a : Nat) (b : Byte) : (State.setByte a b s).pc = s.pc := rfl
@[simp] theorem State.setByte_sp (a : Nat) (b : Byte) : (State.setByte a b s).sp = s.sp := rfl
@[simp] theorem State.setByte_stack (a : Nat) (b : Byte) : (State.setByte a b s).stack = s.stack := rfl
@[simp] theorem State.setByte_dt (a : Nat) (b : Byte) : (State.setByte a b s).dt = s.dt := rfl
@[simp] theorem State.setByte_st (a : Nat) (b : Byte) : (State.setByte a b s).st = s.st := rfl
@[simp] theorem State.setByte_key (a : Nat) (b : Byte) : (State.setByte a b s).key = s.key := rfl
@[simp] theorem State.setByte_disp (a : Nat) (b : Byte) : (State.setByte a b s).disp = s.disp := rfl
@[simp] theorem State.setByte_mem (a : Nat) (b : Byte) : (State.setByte a b s).mem = Memory.write s.font s.mem a b := rfl
@[simp] theorem State.setByte_waitKey (a : Nat) (b : Byte) : (State.setByte a b s).waitKey = s.waitKey := rfl
@[simp] theorem State.setByte_fault (a : Nat) (b : Byte) : (State.setByte a b s).fault = s.fault := rfl
@[simp] theorem State.setByte_font (a : Nat) (b : Byte) : (State.setByte a b s).font = s.font := rfl
@[simp] theorem State.setByte_draws (a : Nat) (b : Byte) : (State.setByte a b s).draws = s.draws := rfl

/-! `State.setReg` -/
@[simp] theorem State.setReg_v (x : RegIdx) (b : Byte) : (State.setReg x b s).v = s.v.set x b := rfl
@[simp] theorem State.setReg_i (x : RegIdx) (b : Byte) : (State.setReg x b s).i = s.i := rfl
@[simp] theorem State.setReg_pc (x : RegIdx) (b : Byte) : (State.setReg x b s).pc = s.pc := rfl
@[simp] theorem State.setReg_sp (x : RegIdx) (b : Byte) : (State.setReg x b s).sp = s.sp := rfl
@[simp] theorem State.setReg_stack (x : RegIdx) (b : Byte) : (State.setReg x b s).stack = s.stack := rfl
@[simp] theorem State.setReg_dt (x : RegIdx) (b : Byte) : (State.setReg x b s).dt = s.dt := rfl
@[simp] theorem State.setReg_st (x : RegIdx) (b : Byte) : (State.setReg x b s).st = s.st := rfl
@[simp] theorem State.setReg_key (x : RegIdx) (b : Byte) : (State.setReg x b s).key = s.key := rfl
@[simp] theorem State.setReg_disp (x : RegIdx) (b : Byte) : (State.setReg x b s).disp = s.disp := rfl
@[simp] theorem State.setReg_mem (x : RegIdx) (b : Byte) : (State.setReg x b s).mem = s.mem := rfl
@[simp] theorem State.setReg_waitKey (x : RegIdx) (b : Byte) : (State.setReg x b s).waitKey = s.waitKey := rfl
@[simp] theorem State.setReg_fault (x : RegIdx) (b : Byte) : (State.setReg x b s).fault = s.fault := rfl
@[simp] theorem State.setReg_font (x : RegIdx) (b : Byte) : (State.setReg x b s).font = s.font := rfl
@[simp] theorem State.setReg_draws (x : RegIdx) (b : Byte) : (State.setReg x b s).draws = s.draws := rfl

/-! `State.setFlag` -/
@[simp] theorem State.setFlag_v (b : Byte) : (State.setFlag b s).v = s.v.set 15 b := rfl
@[simp] theorem State.setFlag_i (b : Byte) : (State.setFlag b s).i = s.i := rfl
@[simp] theorem State.setFlag_pc (b : Byte) : (State.setFlag b s).pc = s.pc := rfl
@[simp] theorem State.setFlag_sp (b : Byte) : (State.setFlag b s).sp = s.sp := rfl
@[simp] theorem State.setFlag_stack (b : Byte) : (State.setFlag b s).stack = s.stack := rfl
@[simp] theorem State.setFlag_dt (b : Byte) : (State.setFlag b s).dt = s.dt := rfl
@[simp] theorem State.setFlag_st (b : Byte) : (State.setFlag b s).st = s.st := rfl
@[simp] theorem State.setFlag_key (b : Byte) : (State.setFlag b s).key = s.key := rfl
@[simp] theorem State.setFlag_disp (b : Byte) : (State.setFlag b s).disp = s.disp := rfl
@[simp] theorem State.setFlag_mem (b : Byte) : (State.setFlag b s).mem = s.mem := rfl
@[simp] theorem State.setFlag_waitKey (b : Byte) : (State.setFlag b s).waitKey = s.waitKey := rfl
@[simp] theorem State.setFlag_fault (b : Byte) : (State.setFlag b s).fault = s.fault := rfl
@[simp] theorem State.setFlag_font (b : Byte) : (State.setFlag b s).font = s.font := rfl
@[simp] theorem State.setFlag_draws (b : Byte) : (State.setFlag b s).draws = s.draws := rfl

/-! `State.setRegAndFlag` -/
@[simp] theorem State.setRegAndFlag_v (x : RegIdx) (b c : Byte) : (State.setRegAndFlag x b c s).v = (s.v.set x b).set 15 c := rfl
@[simp] theorem State.setRegAndFlag_i (x : RegIdx) (b c : Byte) : (State.setRegAndFlag x b c s).i = s.i := rfl
@[simp] theorem State.setRegAndFlag_pc (x : RegIdx) (b c : Byte) : (State.setRegAndFlag x b c s).pc = s.pc := rfl
@[simp] theorem State.setRegAndFlag_sp (x : RegIdx) (b c : Byte) : (State.setRegAndFlag x b c s).sp = s.sp := rfl
@[simp] theorem State.setRegAndFlag_stack (x : RegIdx) (b c : Byte) : (State.setRegAndFlag x b c s).stack = s.stack := rfl
@[simp] theorem State.setRegAndFlag_dt (x : RegIdx) (b c : Byte) : (State.setRegAndFlag x b c s).dt = s.dt := rfl
@[simp] theorem State.setRegAndFlag_st (x : RegIdx) (b c : Byte) : (State.setRegAndFlag x b c s).st = s.st := rfl
@[simp] theorem State.setRegAndFlag_key (x : RegIdx) (b c : Byte) : (State.setRegAndFlag x b c s).key = s.key := rfl
@[simp] theorem State.setRegAndFlag_disp (x : RegIdx) (b c : Byte) : (State.setRegAndFlag x b c s).disp = s.disp := rfl
@[simp] theorem State.setRegAndFlag_mem (x : RegIdx) (b c : Byte) : (State.setRegAndFlag x b c s).mem = s.mem := rfl
@[simp] theorem State.setRegAndFlag_waitKey (x : RegIdx) (b c : Byte) : (State.setRegAndFlag x b c s).waitKey = s.waitKey := rfl
@[simp] theorem State.setRegAndFlag_fault (x : RegIdx) (b c : Byte) : (State.setRegAndFlag x b c s).fault = s.fault := rfl
@[simp] theorem State.setRegAndFlag_font (x : RegIdx) (b c : Byte) : (State.setRegAndFlag x b c s).font = s.font := rfl
@[simp] theorem State.setRegAndFlag_draws (x : RegIdx) (b c : Byte) : (State.setRegAndFlag x b c s).draws = s.draws := rfl

/-! `State.setIndex` -/
@[simp] theorem State.setIndex_v (w : Word) : (State.setIndex w s).v = s.v := rfl
@[simp] theorem State.setIndex_i (w : Word) : (State.setIndex w s).i = w := rfl
@[simp] theorem State.setIndex_pc (w : Word) : (State.setIndex w s).pc = s.pc := rfl
@[simp] theorem State.setIndex_sp (w : Word) : (State.setIndex w s).sp = s.sp := rfl
@[simp] theorem State.setIndex_stack (w : Word) : (State.setIndex w s).stack = s.stack := rfl
@[simp] theorem State.setIndex_dt (w : Word) : (State.setIndex w s).dt = s.dt := rfl
@[simp] theorem State.setIndex_st (w : Word) : (State.setIndex w s).st = s.st := rfl
@[simp] theorem State.setIndex_key (w : Word) : (State.setIndex w s).key = s.key := rfl
@[simp] theorem State.setIndex_disp (w : Word) : (State.setIndex w s).disp = s.disp := rfl
@[simp] theorem State.setIndex_mem (w : Word) : (State.setIndex w s).mem = s.mem := rfl
@[simp] theorem State.setIndex_waitKey (w : Word) : (State.setIndex w s).waitKey = s.waitKey := rfl
@[simp] theorem State.setIndex_fault (w : Word) : (State.setIndex w s).fault = s.fault := rfl
@[simp] theorem State.setIndex_font (w : Word) : (State.setIndex w s).font = s.font := rfl
@[simp] theorem State.setIndex_draws (w : Word) : (State.setIndex w s).draws = s.draws := rfl

/-! `State.setPc` -/
@[simp] theorem State.setPc_v (w : Word) : (State.setPc w s).v = s.v := rfl
@[simp] theorem State.setPc_i (w : Word) : (State.setPc w s).i = s.i := rfl
@[simp] theorem State.setPc_pc (w : Word) : (State.setPc w s).pc = w := rfl
@[simp] theorem State.setPc_sp (w : Word) : (State.setPc w s).sp = s.sp := rfl
@[simp] theorem State.setPc_stack (w : Word) : (State.setPc w s).stack = s.stack := rfl
@[simp] theorem State.setPc_dt (w : Word) : (State.setPc w s).dt = s.dt := rfl
@[simp] theorem State.setPc_st (w : Word) : (State.setPc w s).st = s.st := rfl
@[simp] theorem State.setPc_key (w : Word) : (State.setPc w s).key = s.key := rfl
@[simp] theorem State.setPc_disp (w : Word) : (State.setPc w s).disp = s.disp := rfl
@[simp] theorem State.setPc_mem (w : Word) : (State.setPc w s).mem = s.mem := rfl
@[simp] theorem State.setPc_waitKey (w : Word) : (State.setPc w s).waitKey = s.waitKey := rfl
@[simp] theorem State.setPc_fault (w : Word) : (State.setPc w s).fault = s.fault := rfl
@[simp] theorem State.setPc_font (w : Word) : (State.setPc w s).font = s.font := rfl
@[simp] theorem State.setPc_draws (w : Word) : (State.setPc w s).draws = s.draws := rfl

/-! `State.setDelay` -/
@[simp] theorem State.setDelay_v (b : Byte) : (State.setDelay b s).v = s.v := rfl
@[simp] theorem State.setDelay_i (b : Byte) : (State.setDelay b s).i = s.i := rfl
@[simp] theorem State.setDelay_pc (b : Byte) : (State.setDelay b s).pc = s.pc := rfl
@[simp] theorem State.setDelay_sp (b : Byte) : (State.setDelay b s).sp = s.sp := rfl
@[simp] theorem State.setDelay_stack (b : Byte) : (State.setDelay b s).stack = s.stack := rfl
@[simp] theorem State.setDelay_dt (b : Byte) : (State.setDelay b s).dt = b := rfl
@[simp] theorem State.setDelay_st (b : Byte) : (State.setDelay b s).st = s.st := rfl
@[simp] theorem State.setDelay_key (b : Byte) : (State.setDelay b s).key = s.key := rfl
@[simp] theorem State.setDelay_disp (b : Byte) : (State.setDelay b s).disp = s.disp := rfl
@[simp] theorem State.setDelay_mem (b : Byte) : (State.setDelay b s).mem = s.mem := rfl
@[simp] theorem State.setDelay_waitKey (b : Byte) : (State.setDelay b s).waitKey = s.waitKey := rfl
@[simp] theorem State.setDelay_fault (b : Byte) : (State.setDelay b s).fault = s.fault := rfl
@[simp] theorem State.setDelay_font (b : Byte) : (State.setDelay b s).font = s.font := rfl
@[simp] theorem State.setDelay_draws (b : Byte) : (State.setDelay b s).draws = s.draws := rfl

/-! `State.setSound` -/
@[simp] theorem State.setSound_v (b : Byte) : (State.setSound b s).v = s.v := rfl
@[simp] theorem State.setSound_i (b : Byte) : (State.setSound b s).i = s.i := rfl
@[simp] theorem State.setSound_pc (b : Byte) : (State.setSound b s).pc = s.pc := rfl
@[simp] theorem State.setSound_sp (b : Byte) : (State.setSound b s).sp = s.sp := rfl
@[simp] theorem State.setSound_stack (b : Byte) : (State.setSound b s).stack = s.stack := rfl
@[simp] theorem State.setSound_dt (b : Byte) : (State.setSound b s).dt = s.dt := rfl
@[simp] theorem State.setSound_st (b : Byte) : (State.setSound b s).st = b := rfl
@[simp] theorem State.setSound_key (b : Byte) : (State.setSound b s).key = s.key := rfl
@[simp] theorem State.setSound_disp (b : Byte) : (State.setSound b s).disp = s.disp := rfl
@[simp] theorem State.setSound_mem (b : Byte) : (State.setSound b s).mem = s.mem := rfl
@[simp] theorem State.setSound_waitKey (b : Byte) : (State.setSound b s).waitKey = s.waitKey := rfl
@[simp] theorem State.setSound_fault (b : Byte) : (State.setSound b s).fault = s.fault := rfl
@[simp] theorem State.setSound_font (b : Byte) : (State.setSound b s).font = s.font := rfl
@[simp] theorem State.setSound_draws (b : Byte) : (State.setSound b s).draws = s.draws := rfl

/-! `State.setWait` -/
@[simp] theorem State.setWait_v (b : Bool) : (State.setWait b s).v = s.v := rfl
@[simp] theorem State.setWait_i (b : Bool) : (State.setWait b s).i = s.i := rfl
@[simp] theorem State.setWait_pc (b : Bool) : (State.setWait b s).pc = s.pc := rfl
@[simp] theorem State.setWait_sp (b : Bool) : (State.setWait b s).sp = s.sp := rfl
@[simp] theorem State.setWait_stack (b : Bool) : (State.setWait b s).stack = s.stack := rfl
@[simp] theorem State.setWait_dt (b : Bool) : (State.setWait b s).dt = s.dt := rfl
@[simp] theorem State.setWait_st (b : Bool) : (State.setWait b s).st = s.st := rfl
@[simp] theorem State.setWait_key (b : Bool) : (State.setWait b s).key = s.key := rfl
@[simp] theorem State.setWait_disp (b : Bool) : (State.setWait b s).disp = s.disp := rfl
@[simp] theorem State.setWait_mem (b : Bool) : (State.setWait b s).mem = s.mem := rfl
@[simp] theorem State.setWait_waitKey (b : Bool) : (State.setWait b s).waitKey = b := rfl
@[simp] theorem State.setWait_fault (b : Bool) : (State.setWait b s).fault = s.fault := rfl
@[simp] theorem State.setWait_font (b : Bool) : (State.setWait b s).font = s.font := rfl
@[simp] theorem State.setWait_draws (b : Bool) : (State.setWait b s).draws = s.draws := rfl

/-! `State.setDisplay` -/
@[simp] theorem State.setDisplay_v (d : Display) : (State.setDisplay d s).v = s.v := rfl
@[simp] theorem State.setDisplay_i (d : Display) : (State.setDisplay d s).i = s.i := rfl
@[simp] theorem State.setDisplay_pc (d : Display) : (State.setDisplay d s).pc = s.pc := rfl
@[simp] theorem State.setDisplay_sp (d : Display) : (State.setDisplay d s).sp = s.sp := rfl
@[simp] theorem State.setDisplay_stack (d : Display) : (State.setDisplay d s).stack = s.stack := rfl
@[simp] theorem State.setDisplay_dt (d : Display) : (State.setDisplay d s).dt = s.dt := rfl
@[simp] theorem State.setDisplay_st (d : Display) : (State.setDisplay d s).st = s.st := rfl
@[simp] theorem State.setDisplay_key (d : Display) : (State.setDisplay d s).key = s.key := rfl
@[simp] theorem State.setDisplay_disp (d : Display) : (State.setDisplay d s).disp = d := rfl
@[simp] theorem State.setDisplay_mem (d : Display) : (State.setDisplay d s).mem = s.mem := rfl
@[simp] theorem State.setDisplay_waitKey (d : Display) : (State.setDisplay d s).waitKey = s.waitKey := rfl
@[simp] theorem State.setDisplay_fault (d : Display) : (State.setDisplay d s).fault = s.fault := rfl
@[simp] theorem State.setDisplay_font (d : Display) : (State.setDisplay d s).font = s.font := rfl
@[simp] theorem State.setDisplay_draws (d : Display) : (State.setDisplay d s).draws = s.draws := rfl

/-! `State.setRegs` -/
@[simp] theorem State.setRegs_v (bs : List Byte) : (State.setRegs bs s).v = Vector.ofFn fun k : Fin 16 => bs.getD k (s.v[k]) := rfl
@[simp] theorem State.setRegs_i (bs : List Byte) : (State.setRegs bs s).i = s.i := rfl
@[simp] theorem State.setRegs_pc (bs : List Byte) : (State.setRegs bs s).pc = s.pc := rfl
@[simp] theorem State.setRegs_sp (bs : List Byte) : (State.setRegs bs s).sp = s.sp := rfl
@[simp] theorem State.setRegs_stack (bs : List Byte) : (State.setRegs bs s).stack = s.stack := rfl
@[simp] theorem State.setRegs_dt (bs : List Byte) : (State.setRegs bs s).dt = s.dt := rfl
@[simp] theorem State.setRegs_st (bs : List Byte) : (State.setRegs bs s).st = s.st := rfl
@[simp] theorem State.setRegs_key (bs : List Byte) : (State.setRegs bs s).key = s.key := rfl
@[simp] theorem State.setRegs_disp (bs : List Byte) : (State.setRegs bs s).disp = s.disp := rfl
@[simp] theorem State.setRegs_mem (bs : List Byte) : (State.setRegs bs s).mem = s.mem := rfl
@[simp] theorem State.setRegs_waitKey (bs : List Byte) : (State.setRegs bs s).waitKey = s.waitKey := rfl
@[simp] theorem State.setRegs_fault (bs : List Byte) : (State.setRegs bs s).fault = s.fault := rfl
@[simp] theorem State.setRegs_font (bs : List Byte) : (State.setRegs bs s).font = s.font := rfl
@[simp] theorem State.setRegs_draws (bs : List Byte) : (State.setRegs bs s).draws = s.draws := rfl

/-! `State.skipIf` -/
@[simp] theorem State.skipIf_v (c : Bool) : (State.skipIf c s).v = s.v := by cases c <;> rfl
@[simp] theorem State.skipIf_i (c : Bool) : (State.skipIf c s).i = s.i := by cases c <;> rfl
@[simp] theorem State.skipIf_pc (c : Bool) : (State.skipIf c s).pc = if c then s.pc + 2 else s.pc := by cases c <;> rfl
@[simp] theorem State.skipIf_sp (c : Bool) : (State.skipIf c s).sp = s.sp := by cases c <;> rfl
@[simp] theorem State.skipIf_stack (c : Bool) : (State.skipIf c s).stack = s.stack := by cases c <;> rfl
@[simp] theorem State.skipIf_dt (c : Bool) : (State.skipIf c s).dt = s.dt := by cases c <;> rfl
@[simp] theorem State.skipIf_st (c : Bool) : (State.skipIf c s).st = s.st := by cases c <;> rfl
@[simp] theorem State.skipIf_key (c : Bool) : (State.skipIf c s).key = s.key := by cases c <;> rfl
@[simp] theorem State.skipIf_disp (c : Bool) : (State.skipIf c s).disp = s.disp := by cases c <;> rfl
@[simp] theorem State.skipIf_mem (c : Bool) : (State.skipIf c s).mem = s.mem := by cases c <;> rfl
@[simp] theorem State.skipIf_waitKey (c : Bool) : (State.skipIf c s).waitKey = s.waitKey := by cases c <;> rfl
@[simp] theorem State.skipIf_fault (c : Bool) : (State.skipIf c s).fault = s.fault := by cases c <;> rfl
@[simp] theorem State.skipIf_font (c : Bool) : (State.skipIf c s).font = s.font := by cases c <;> rfl
@[simp] theorem State.skipIf_draws (c : Bool) : (State.skipIf c s).draws = s.draws := by cases c <;> rfl

/-! `State.advance` -/
@[simp] theorem State.advance_v : (State.advance s).v = s.v := rfl
@[simp] theorem State.advance_i : (State.advance s).i = s.i := rfl
@[simp] theorem State.advance_pc : (State.advance s).pc = s.pc + 2 := rfl
@[simp] theorem State.advance_sp : (State.advance s).sp = s.sp := rfl
@[simp] theorem State.advance_stack : (State.advance s).stack = s.stack := rfl
@[simp] theorem State.advance_dt : (State.advance s).dt = s.dt := rfl
@[simp] theorem State.advance_st : (State.advance s).st = s.st := rfl
@[simp] theorem State.advance_key : (State.advance s).key = s.key := rfl
@[simp] theorem State.advance_disp : (State.advance s).disp = s.disp := rfl
@[simp] theorem State.advance_mem : (State.advance s).mem = s.mem := rfl
@[simp] theorem State.advance_waitKey : (State.advance s).waitKey = false := rfl
@[simp] theorem State.advance_fault : (State.advance s).fault = s.fault := rfl
@[simp] theorem State.advance_font : (State.advance s).font = s.font := rfl
@[simp] theorem State.advance_draws : (State.advance s).draws = s.draws := rfl

/-! `State.takeFault` -/
@[simp] theorem State.takeFault_v (f : Fault) : (State.takeFault f s).v = s.v := rfl
@[simp] theorem State.takeFault_i (f : Fault) : (State.takeFault f s).i = s.i := rfl
@[simp] theorem State.takeFault_pc (f : Fault) : (State.takeFault f s).pc = s.pc := rfl
@[simp] theorem State.takeFault_sp (f : Fault) : (State.takeFault f s).sp = s.sp := rfl
@[simp] theorem State.takeFault_stack (f : Fault) : (State.takeFault f s).stack = s.stack := rfl
@[simp] theorem State.takeFault_dt (f : Fault) : (State.takeFault f s).dt = s.dt := rfl
@[simp] theorem State.takeFault_st (f : Fault) : (State.takeFault f s).st = s.st := rfl
@[simp] theorem State.takeFault_key (f : Fault) : (State.takeFault f s).key = s.key := rfl
@[simp] theorem State.takeFault_disp (f : Fault) : (State.takeFault f s).disp = s.disp := rfl
@[simp] theorem State.takeFault_mem (f : Fault) : (State.takeFault f s).mem = s.mem := rfl
@[simp] theorem State.takeFault_waitKey (f : Fault) : (State.takeFault f s).waitKey = s.waitKey := rfl
@[simp] theorem State.takeFault_fault (f : Fault) : (State.takeFault f s).fault = some { kind := f, faultPc := s.pc } := rfl
@[simp] theorem State.takeFault_font (f : Fault) : (State.takeFault f s).font = s.font := rfl
@[simp] theorem State.takeFault_draws (f : Fault) : (State.takeFault f s).draws = s.draws := rfl

/-! `State.tickTimer` -/
@[simp] theorem State.tickTimer_v : (State.tickTimer s).v = s.v := rfl
@[simp] theorem State.tickTimer_i : (State.tickTimer s).i = s.i := rfl
@[simp] theorem State.tickTimer_pc : (State.tickTimer s).pc = s.pc := rfl
@[simp] theorem State.tickTimer_sp : (State.tickTimer s).sp = s.sp := rfl
@[simp] theorem State.tickTimer_stack : (State.tickTimer s).stack = s.stack := rfl
@[simp] theorem State.tickTimer_dt : (State.tickTimer s).dt = countDown s.dt := rfl
@[simp] theorem State.tickTimer_st : (State.tickTimer s).st = countDown s.st := rfl
@[simp] theorem State.tickTimer_key : (State.tickTimer s).key = s.key := rfl
@[simp] theorem State.tickTimer_disp : (State.tickTimer s).disp = s.disp := rfl
@[simp] theorem State.tickTimer_mem : (State.tickTimer s).mem = s.mem := rfl
@[simp] theorem State.tickTimer_waitKey : (State.tickTimer s).waitKey = s.waitKey := rfl
@[simp] theorem State.tickTimer_fault : (State.tickTimer s).fault = s.fault := rfl
@[simp] theorem State.tickTimer_font : (State.tickTimer s).font = s.font := rfl
@[simp] theorem State.tickTimer_draws : (State.tickTimer s).draws = s.draws := rfl

end

end Sys2Proof.Machine
end

