-- ==== Sys2Proof/Laws/Memory.lean ====
section
/-! SUPPORT. The laws of memory: what a write makes every address read as, and that every memory operation keeps the canonical
form `Memory.wf`, which determines a memory by what it reads as. -/

namespace Sys2Proof.Machine

variable {font : Font}

/-! ### Reading after writing -/

theorem Memory.read_consCell (a : Nat) (v : Byte) (m : Memory) (b : Nat)
    (h : v = Memory.background font a → Memory.read font m a = v) :
    Memory.read font (Memory.consCell font a v m) b = if b = a then v else Memory.read font m b := by
  unfold Memory.consCell
  split
  · next hv => split
               · next hb => rw [hb]; exact h hv
               · rfl
  · simp [Memory.read]

/-- Where every cell stands at `lo` or above, an address below `lo` reads as unlisted. -/
theorem Memory.read_below : ∀ (m : Memory) (lo a : Nat), Memory.wfFrom font lo m = true → a < lo →
    Memory.read font m a = Memory.background font a
  | [], _, _, _, _ => rfl
  | (b, w) :: m, lo, a, h, ha => by
    simp only [Memory.wfFrom, Bool.and_eq_true, decide_eq_true_eq] at h
    have hb : a ≠ b := by omega
    simp only [Memory.read, hb, if_false]
    exact Memory.read_below m (b + 1) a h.2 (by omega)

/-- No cell stands above the address space, so an address there reads as unlisted. -/
theorem Memory.read_above : ∀ (m : Memory) (lo a : Nat), Memory.wfFrom font lo m = true → 4096 ≤ a →
    Memory.read font m a = Memory.background font a
  | [], _, _, _, _ => rfl
  | (b, w) :: m, lo, a, h, ha => by
    simp only [Memory.wfFrom, Bool.and_eq_true, decide_eq_true_eq] at h
    have hb : a ≠ b := by omega
    simp only [Memory.read, hb, if_false]
    exact Memory.read_above m (b + 1) a h.2 ha

theorem Memory.wfFrom_mono : ∀ (m : Memory) (lo lo' : Nat), lo' ≤ lo → Memory.wfFrom font lo m = true →
    Memory.wfFrom font lo' m = true
  | [], _, _, _, _ => rfl
  | (b, w) :: m, lo, lo', hl, h => by
    simp only [Memory.wfFrom, Bool.and_eq_true, decide_eq_true_eq] at h ⊢
    exact ⟨⟨⟨by omega, h.1.1.2⟩, h.1.2⟩, h.2⟩

/-- A write makes its address read as the byte written and leaves every other address alone. -/
theorem Memory.read_write : ∀ (m : Memory) (lo a : Nat) (v : Byte) (b : Nat), Memory.wfFrom font lo m = true →
    Memory.read font (Memory.write font m a v) b = if b = a then v else Memory.read font m b
  | [], _, a, v, b, _ => by
    rw [Memory.write, Memory.read_consCell]
    intro h; rw [h]; rfl
  | (c, w) :: m, lo, a, v, b, h => by
    have h' := h
    simp only [Memory.wfFrom, Bool.and_eq_true, decide_eq_true_eq] at h
    rw [Memory.write]
    split
    · next hac =>
      rw [Memory.read_consCell]
      intro hv
      have := Memory.read_below ((c, w) :: m) c a
        (by simp only [Memory.wfFrom, Bool.and_eq_true, decide_eq_true_eq]; exact ⟨⟨⟨Nat.le_refl c, h.1.1.2⟩, h.1.2⟩, h.2⟩) hac
      rw [this, hv]
    · split
      · next hac =>
        subst hac
        rw [Memory.read_consCell]
        · by_cases hb : b = a <;> simp [Memory.read, hb]
        · intro hv
          rw [Memory.read_below m (a + 1) a h.2 (by omega), hv]
      · next hac =>
        simp only [Memory.read]
        rw [Memory.read_write m (c + 1) a v b h.2]
        by_cases hb : b = c
        · have : b ≠ a := by omega
          simp [hb]; omega
        · simp [hb]

theorem Memory.read_write_self (m : Memory) (a : Nat) (v : Byte) (h : Memory.wf font m = true) :
    Memory.read font (Memory.write font m a v) a = v := by
  rw [Memory.read_write m 0 a v a h]; simp

theorem Memory.read_write_other (m : Memory) (a : Nat) (v : Byte) (b : Nat) (h : Memory.wf font m = true) (hb : b ≠ a) :
    Memory.read font (Memory.write font m a v) b = Memory.read font m b := by
  rw [Memory.read_write m 0 a v b h]; simp [hb]

/-! ### The canonical form is kept -/

theorem Memory.wfFrom_consCell (a : Nat) (v : Byte) (m : Memory) (lo : Nat) (hlo : lo ≤ a) (ha : a < 4096)
    (h : Memory.wfFrom font (a + 1) m = true) : Memory.wfFrom font lo (Memory.consCell font a v m) = true := by
  unfold Memory.consCell
  split
  · exact Memory.wfFrom_mono m (a + 1) lo (by omega) h
  · next hv => simp [Memory.wfFrom, hlo, ha, hv, h]

theorem Memory.wfFrom_write : ∀ (m : Memory) (lo a : Nat) (v : Byte), lo ≤ a → a < 4096 → Memory.wfFrom font lo m = true →
    Memory.wfFrom font lo (Memory.write font m a v) = true
  | [], lo, a, v, hlo, ha, _ => Memory.wfFrom_consCell a v [] lo hlo ha rfl
  | (c, w) :: m, lo, a, v, hlo, ha, h => by
    simp only [Memory.wfFrom, Bool.and_eq_true, decide_eq_true_eq] at h
    rw [Memory.write]
    split
    · next hac =>
      refine Memory.wfFrom_consCell a v _ lo hlo ha ?_
      simp only [Memory.wfFrom, Bool.and_eq_true, decide_eq_true_eq]
      exact ⟨⟨⟨by omega, h.1.1.2⟩, h.1.2⟩, h.2⟩
    · split
      · next hac => subst hac; exact Memory.wfFrom_consCell a v m lo hlo ha h.2
      · next hac =>
        simp only [Memory.wfFrom, Bool.and_eq_true, decide_eq_true_eq]
        exact ⟨⟨⟨h.1.1.1, h.1.1.2⟩, h.1.2⟩, Memory.wfFrom_write m (c + 1) a v (by omega) ha h.2⟩

/-- A write inside the address space keeps the canonical form. -/
theorem Memory.wf_write (m : Memory) (a : Nat) (v : Byte) (ha : a < 4096) (h : Memory.wf font m = true) :
    Memory.wf font (Memory.write font m a v) = true := Memory.wfFrom_write m 0 a v (by omega) ha h

/-- Writing a list of bytes that ends inside the address space keeps the canonical form. -/
theorem Memory.wf_writeList : ∀ (bs : List Byte) (m : Memory) (base : Nat), base + bs.length ≤ 4096 → Memory.wf font m = true →
    Memory.wf font (Memory.writeList font m base bs) = true
  | [], _, _, _, h => h
  | b :: bs, m, base, hl, h => by
    simp only [List.length_cons] at hl
    exact Memory.wf_writeList bs _ (base + 1) (by omega) (Memory.wf_write m base b (by omega) h)

/-- What every address reads as after a list of bytes is written. -/
theorem Memory.read_writeList : ∀ (bs : List Byte) (m : Memory) (base a : Nat), base + bs.length ≤ 4096 → Memory.wf font m = true →
    Memory.read font (Memory.writeList font m base bs) a =
      if h : base ≤ a ∧ a < base + bs.length then bs[a - base]'(by omega) else Memory.read font m a
  | [], m, base, a, _, _ => by
    have : ¬ (base ≤ a ∧ a < base + ([] : List Byte).length) := by simp
    rw [dif_neg this]; rfl
  | b :: bs, m, base, a, hl, h => by
    simp only [List.length_cons] at hl
    rw [Memory.writeList, Memory.read_writeList bs _ (base + 1) a (by omega) (Memory.wf_write m base b (by omega) h),
      Memory.read_write m 0 base b a h]
    by_cases h0 : a = base
    · subst h0; simp
    · by_cases h1 : base + 1 ≤ a ∧ a < base + 1 + bs.length
      · have h2 : base ≤ a ∧ a < base + (b :: bs).length := by simp; omega
        rw [dif_pos h1, dif_pos h2, List.getElem_cons]
        have h3 : a - base ≠ 0 := by omega
        simp only [h3, dite_false]
        congr 1
      · have h2 : ¬ (base ≤ a ∧ a < base + (b :: bs).length) := by simp; omega
        rw [dif_neg h1, dif_neg h2]; simp [h0]

/-- Memory as reset leaves it is in the canonical form. -/
theorem Memory.wf_nil : Memory.wf font [] = true := rfl

/-! ### The canonical form determines memory -/

theorem Memory.eq_of_read_eq : ∀ (m m' : Memory) (lo : Nat), Memory.wfFrom font lo m = true → Memory.wfFrom font lo m' = true →
    (∀ a, Memory.read font m a = Memory.read font m' a) → m = m'
  | [], [], _, _, _, _ => rfl
  | [], (c, w) :: m', lo, _, h', hr => by
    simp only [Memory.wfFrom, Bool.and_eq_true, decide_eq_true_eq] at h'
    have := hr c
    simp only [Memory.read, if_true] at this
    exact absurd this.symm h'.1.2
  | (c, w) :: m, [], lo, h, _, hr => by
    simp only [Memory.wfFrom, Bool.and_eq_true, decide_eq_true_eq] at h
    have := hr c
    simp only [Memory.read, if_true] at this
    exact absurd this h.1.2
  | (c, w) :: m, (c', w') :: m', lo, h, h', hr => by
    have hf := h; have hf' := h'
    simp only [Memory.wfFrom, Bool.and_eq_true, decide_eq_true_eq] at h h'
    have hcc : c = c' := by
      rcases Nat.lt_trichotomy c c' with hlt | heq | hgt
      · have h1 := hr c
        have h2 : Memory.read font ((c', w') :: m') c = Memory.background font c :=
          Memory.read_below _ c' c (by
            simp only [Memory.wfFrom, Bool.and_eq_true, decide_eq_true_eq]
            exact ⟨⟨⟨Nat.le_refl _, h'.1.1.2⟩, h'.1.2⟩, h'.2⟩) hlt
        rw [h2] at h1
        simp only [Memory.read, if_true] at h1
        exact absurd h1 h.1.2
      · exact heq
      · have h1 := hr c'
        have h2 : Memory.read font ((c, w) :: m) c' = Memory.background font c' :=
          Memory.read_below _ c c' (by
            simp only [Memory.wfFrom, Bool.and_eq_true, decide_eq_true_eq]
            exact ⟨⟨⟨Nat.le_refl _, h.1.1.2⟩, h.1.2⟩, h.2⟩) hgt
        rw [h2] at h1
        simp only [Memory.read, if_true] at h1
        exact absurd h1.symm h'.1.2
    subst hcc
    have hw : w = w' := by simpa [Memory.read] using hr c
    subst hw
    congr 1
    refine Memory.eq_of_read_eq m m' (c + 1) h.2 h'.2 fun a => ?_
    by_cases ha : a = c
    · subst ha
      rw [Memory.read_below m (a + 1) a h.2 (by omega), Memory.read_below m' (a + 1) a h'.2 (by omega)]
    · simpa [Memory.read, ha] using hr a

end Sys2Proof.Machine
end

