-- ==== Sys2Proof/Laws/Ops.lean ====
section
/-! SUPPORT. One lemma per shared operation that says everything it can do: memory accesses of an instruction, the call stack,
the shape of a tick, the operand forms. -/

namespace Sys2Proof.Machine

/-! ### Reading a byte of a changed state -/

@[simp] theorem State.byteAt_with_v (s : State) (v) (a : Nat) : ({ s with v := v } : State).byteAt a = s.byteAt a := rfl
@[simp] theorem State.byteAt_advance (s : State) (a : Nat) : s.advance.byteAt a = s.byteAt a := rfl
@[simp] theorem State.byteAt_takeFault (s : State) (f : Fault) (a : Nat) : (s.takeFault f).byteAt a = s.byteAt a := rfl

/-! ### Accesses of an instruction -/

theorem State.memRead_inside (s : State) (a : Nat) (h : a ≤ 4095) : s.memRead a = .ok (s.byteAt a) := by
  have : ¬ 4095 < a := by omega
  simp [State.memRead, this]

theorem State.memRead_outside (s : State) (a : Nat) (h : 4095 < a) : s.memRead a = .error (.addressOutOfRange a) := by
  simp [State.memRead, h]

theorem State.memWrite_inside (s : State) (a : Nat) (v : Byte) (h : a ≤ 4095) : s.memWrite a v = .ok (s.setByte a v) := by
  have : ¬ 4095 < a := by omega
  simp [State.memWrite, this]

theorem State.memWrite_outside (s : State) (a : Nat) (v : Byte) (h : 4095 < a) :
    s.memWrite a v = .error (.addressOutOfRange a) := by
  simp [State.memWrite, h]

/-- `n` reads from `a` on: the bytes where all of them are inside memory, else the fault of the lowest address outside (R64). -/
theorem State.loadBytes_eq (s : State) : ∀ (n a : Nat), s.loadBytes a n =
    if n = 0 ∨ a + n ≤ 4096 then .ok ((List.range n).map fun k => s.byteAt (a + k))
    else .error (.addressOutOfRange (firstAddressOutside a))
  | 0, a => by simp [State.loadBytes]
  | n + 1, a => by
    rw [State.loadBytes]
    by_cases ha : a ≤ 4095
    · rw [State.memRead_inside s a ha, State.loadBytes_eq s n (a + 1)]
      by_cases hn : n = 0 ∨ a + 1 + n ≤ 4096
      · have h1 : n + 1 = 0 ∨ a + (n + 1) ≤ 4096 := by omega
        simp only [hn, h1, if_true]
        rw [List.range_succ_eq_map]
        simp [Function.comp_def, Nat.add_assoc, Nat.add_comm 1]
      · have h1 : ¬ (n + 1 = 0 ∨ a + (n + 1) ≤ 4096) := by omega
        simp only [hn, h1, if_false]
        have : max (a + 1) 4096 = max a 4096 := by omega
        simp [firstAddressOutside, this]
    · rw [State.memRead_outside s a (by omega)]
      have h1 : ¬ (n + 1 = 0 ∨ a + (n + 1) ≤ 4096) := by omega
      have : max a 4096 = a := by omega
      rw [if_neg h1]
      simp [firstAddressOutside, this]

/-- Stores of a list of bytes from `a` on: memory rewritten where all of them are inside, else the fault of the lowest address
outside (R64). -/
theorem State.storeBytes_eq : ∀ (bs : List Byte) (a : Nat) (s : State), State.storeBytes a bs s =
    if bs = [] ∨ a + bs.length ≤ 4096 then .ok { s with mem := Memory.writeList s.font s.mem a bs }
    else .error (.addressOutOfRange (firstAddressOutside a))
  | [], a, s => by simp [State.storeBytes, Memory.writeList]
  | b :: bs, a, s => by
    rw [State.storeBytes]
    by_cases ha : a ≤ 4095
    · rw [State.memWrite_inside s a b ha]
      simp only
      rw [State.storeBytes_eq bs (a + 1) (s.setByte a b)]
      by_cases hn : bs = [] ∨ a + 1 + bs.length ≤ 4096
      · have h1 : b :: bs = [] ∨ a + (b :: bs).length ≤ 4096 := by
          right; rcases hn with h | h
          · subst h; simp; omega
          · simp; omega
        simp only [hn, h1, if_true]
        rfl
      · have h1 : ¬ (b :: bs = [] ∨ a + (b :: bs).length ≤ 4096) := by
          simp only [not_or] at hn; simp; omega
        simp only [hn, h1, if_false]
        have : max (a + 1) 4096 = max a 4096 := by omega
        simp [firstAddressOutside, this]
    · rw [State.memWrite_outside s a b (by omega)]
      have h1 : ¬ (b :: bs = [] ∨ a + (b :: bs).length ≤ 4096) := by simp; omega
      have : max a 4096 = a := by omega
      simp only [h1, if_false]
      simp [firstAddressOutside, this]

@[simp] theorem bcdDigits_length (v : Byte) : (bcdDigits v).length = 3 := rfl

@[simp] theorem State.regsUpTo_length (s : State) (x : RegIdx) : (s.regsUpTo x).length = x.val + 1 := by
  simp [State.regsUpTo]

theorem State.regsUpTo_getElem (s : State) (x : RegIdx) (k : Nat) (h : k < (s.regsUpTo x).length) :
    (s.regsUpTo x)[k] = s.v[k]'(by simp at h; omega) := by
  simp [State.regsUpTo]

/-! ### The call stack -/

theorem State.push_room (s : State) (w : Word) (h : s.sp.val < 16) :
    s.push w = .ok { s with stack := s.stack.set s.sp.val w, sp := ⟨s.sp.val + 1, by omega⟩ } := by
  simp [State.push, h]

theorem State.push_full (s : State) (w : Word) (h : s.sp.val = 16) : s.push w = .error .stackOverflow := by
  simp [State.push, h]

theorem State.pop_empty (s : State) (h : s.sp.val = 0) : s.pop = .error .stackUnderflow := by
  simp [State.pop, h]

theorem State.pop_some (s : State) (h : s.sp.val ≠ 0) :
    s.pop = .ok (s.stack[s.sp.val - 1]'(by omega), { s with sp := ⟨s.sp.val - 1, by omega⟩ }) := by
  unfold State.pop; rw [dif_neg h]

/-! ### The shape of a tick -/

/-- An instruction that can fault ends in its rule's state or in the fault taken on the state before it, and in nothing else. -/
theorem completeOrFault_cases (rule : State → Except Fault State) (s : State) :
    (∃ t, rule s.advance = .ok t ∧ completeOrFault rule s = .next t) ∨
    (∃ f, rule s.advance = .error f ∧ completeOrFault rule s = .next (s.takeFault f)) := by
  unfold completeOrFault
  cases h : rule s.advance with
  | ok t => exact .inl ⟨t, rfl, rfl⟩
  | error f => exact .inr ⟨f, rfl, rfl⟩

theorem State.fetchWord_inside (s : State) (h : s.pc.toNat ≤ 4094) :
    s.fetchWord = .ok (wordOfBytes (s.byteAt s.pc.toNat) (s.byteAt (s.pc.toNat + 1))) := by
  rw [State.fetchWord, State.memRead_inside s _ (by omega), State.memRead_inside s _ (by omega)]

theorem State.fetchWord_outside (s : State) (h : 4094 < s.pc.toNat) :
    s.fetchWord = .error (.addressOutOfRange (firstAddressOutside s.pc.toNat)) := by
  rw [State.fetchWord]
  by_cases h1 : s.pc.toNat ≤ 4095
  · have h2 : s.pc.toNat = 4095 := by omega
    rw [State.memRead_inside s _ h1, State.memRead_outside s _ (by omega)]
    simp [firstAddressOutside, h2]
  · rw [State.memRead_outside s _ (by omega)]
    have : max s.pc.toNat 4096 = s.pc.toNat := by omega
    simp [firstAddressOutside, this]

/-- A tick changes nothing, takes a fault of the fetch or the decode, or runs the decoded instruction (R120). -/
theorem tickBy_cases (ex : Instr → State → Host.Outcome State Fault Refusal) (s : State) :
    (s.fault ≠ none ∧ tickBy ex s = .next s) ∨
    (∃ f, s.fault = none ∧ s.fetchInstr = .error f ∧ tickBy ex s = .next (s.takeFault f)) ∨
    (∃ i, s.fault = none ∧ s.fetchInstr = .ok i ∧ tickBy ex s = ex i s) := by
  unfold tickBy
  cases hf : s.fault with
  | some r => exact .inl ⟨by simp, rfl⟩
  | none =>
    cases hi : s.fetchInstr with
    | error f => exact .inr (.inl ⟨f, rfl, rfl, rfl⟩)
    | ok i => exact .inr (.inr ⟨i, rfl, rfl, rfl⟩)

/-- Fetch and decode from inside memory: the instruction of the word, or UnimplementedOpcode naming it (R98). -/
theorem State.fetchInstr_inside (s : State) (h : s.pc.toNat ≤ 4094) :
    s.fetchInstr = match decodeByGroup (wordOfBytes (s.byteAt s.pc.toNat) (s.byteAt (s.pc.toNat + 1))) with
      | some i => .ok i
      | none => .error (.unimplementedOpcode (wordOfBytes (s.byteAt s.pc.toNat) (s.byteAt (s.pc.toNat + 1)))) := by
  rw [State.fetchInstr, State.fetchWord_inside s h]
  simp only [decodeWord]
  cases decodeByGroup (wordOfBytes (s.byteAt s.pc.toNat) (s.byteAt (s.pc.toNat + 1))) <;> rfl

theorem State.fetchInstr_outside (s : State) (h : 4094 < s.pc.toNat) :
    s.fetchInstr = .error (.addressOutOfRange (firstAddressOutside s.pc.toNat)) := by
  rw [State.fetchInstr, State.fetchWord_outside s h]

/-- An instruction is fetched only from a pc of at most 4094 (R121). -/
theorem State.pc_of_fetchInstr_ok (s : State) (i : Instr) (h : s.fetchInstr = .ok i) : s.pc.toNat ≤ 4094 := by
  by_contra hp
  rw [State.fetchInstr_outside s (by omega)] at h
  cases h

/-! ### Skips, flags, sprites, timers -/

/-- A skip is one record update (41_control_flow.md R143). -/
theorem State.skipIf_eq (c : Bool) (s : State) : s.skipIf c = { s with pc := if c then s.pc + 2 else s.pc } := by
  cases c <;> rfl

theorem flagByte_toNat (c : Bool) : (flagByte c).toNat = if c then 1 else 0 := by cases c <;> rfl

@[simp] theorem State.spriteAt_length (s : State) (n : Nat) : (s.spriteAt n).length = n := by simp [State.spriteAt]

theorem countDown_toNat (t : Byte) : (countDown t).toNat = t.toNat - 1 := by
  unfold countDown
  split
  · next h => subst h; rfl
  · next h =>
    have : t.toNat ≠ 0 := fun h' => h (BitVec.eq_of_toNat_eq h')
    bv_omega

/-! ### Operand forms -/

theorem keyIndex_small (vx : Byte) (h : vx.toNat < 16) : keyIndex vx = .ok ⟨vx.toNat, h⟩ := by
  unfold keyIndex; rw [dif_pos h]

theorem keyIndex_large (vx : Byte) (h : 16 ≤ vx.toNat) : keyIndex vx = .error (.invalidKeyIndex vx.toNat) := by
  unfold keyIndex; rw [dif_neg (by omega)]

theorem lowestKey_eq_none (key : Vector Bool 16) : lowestKey key = none ↔ ∀ k : Fin 16, key[k] = false := by
  simp [lowestKey, List.find?_eq_none]

theorem lowestKey_eq_some (key : Vector Bool 16) (k : Fin 16) :
    lowestKey key = some k ↔ key[k] = true ∧ ∀ j : Fin 16, j < k → key[j] = false := by
  revert key k
  intro key k
  unfold lowestKey
  rw [List.find?_eq_some_iff_append]
  constructor
  · rintro ⟨hk, as, bs, hab, hall⟩
    refine ⟨hk, fun j hj => ?_⟩
    have hsorted : (as ++ k :: bs).Pairwise (· < ·) := by rw [← hab]; exact List.pairwise_lt_finRange 16
    have hmem : j ∈ as ++ k :: bs := by rw [← hab]; exact List.mem_finRange j
    rw [List.pairwise_append] at hsorted
    rcases List.mem_append.1 hmem with h | h
    · simpa using hall j h
    · rcases List.mem_cons.1 h with rfl | h
      · exact absurd hj (lt_irrefl _)
      · have := (List.pairwise_cons.1 hsorted.2.1).1 j h
        exact absurd hj (not_lt.2 this.le)
  · rintro ⟨hk, hlt⟩
    refine ⟨hk, (List.finRange 16).take k.val, (List.finRange 16).drop (k.val + 1), ?_, fun j hj => ?_⟩
    · have h1 : (List.finRange 16)[k.val]'(by simp) = k := by simp
      conv_lhs => rw [← List.take_append_drop k.val (List.finRange 16)]
      rw [List.drop_eq_getElem_cons (by simp), h1]
    · obtain ⟨n, hn, rfl⟩ := List.mem_iff_getElem.1 hj
      simp only [List.length_take, List.length_finRange] at hn
      simp only [List.getElem_take, List.getElem_finRange]
      have := hlt ⟨n, by omega⟩ (by simp [Fin.lt_def]; omega)
      simpa using this

/-- No digit is above 9, and the digits make up the byte (43_index_memory.md R205). -/
theorem bcdDigits_value (v : Byte) : ((bcdDigits v)[0]).toNat = v.toNat / 100 ∧ ((bcdDigits v)[1]).toNat = v.toNat / 10 % 10 ∧
    ((bcdDigits v)[2]).toNat = v.toNat % 10 := by
  have := v.isLt
  simp only [bcdDigits, List.getElem_cons_zero, List.getElem_cons_succ, BitVec.toNat_ofNat]
  omega

end Sys2Proof.Machine
end

