-- ==== Sys2Proof/Laws/Display.lean ====
section
/-! SUPPORT. What drawing a sprite does to every pixel, and when it reports a collision (44_display.md R221 to R224): the loops of
R222 toggle no pixel twice, so a pixel ends as its old value XOR the sprite bit that maps to it. -/

namespace Sys2Proof.Machine

/-! ### One pixel -/

theorem Display.pixel_toggle (d : Display) (x x' : Fin 64) (y y' : Fin 32) :
    Display.pixel (Display.toggle d x y) x' y' =
      (Display.pixel d x' y' ^^ (decide (y' = y) && decide (x' = x))) := by
  simp only [Display.pixel, Display.toggle]
  by_cases hy : y' = y
  · subst hy
    by_cases hx : x' = x
    · subst hx; simp
    · have : x.val ≠ x'.val := fun h => hx (Fin.ext h.symm)
      simp [hx, this]
  · have : y.val ≠ y'.val := fun h => hy (Fin.ext h.symm)
    simp [hy, this]

theorem Display.pixel_clear (x : Fin 64) (y : Fin 32) : Display.pixel Display.clear x y = false := by
  simp [Display.pixel, Display.clear]

/-- A display is its pixels. -/
theorem Display.ext_pixel {d d' : Display} (h : ∀ x y, Display.pixel d x y = Display.pixel d' x y) : d = d' := by
  apply Vector.ext
  intro j hj
  apply Vector.ext
  intro k hk
  exact h ⟨k, hk⟩ ⟨j, hj⟩

/-- Element `x + 64 * y` of the row-major sequence is `disp[x][y]` (60_exceptions.md R275). -/
theorem List.getElem?_flatten_rows {α : Type} : ∀ (rows : List (List α)) (w : Nat), (∀ r ∈ rows, r.length = w) →
    ∀ (x y : Nat), x < w → rows.flatten[x + w * y]? = rows[y]?.bind fun r => r[x]?
  | [], w, _, x, y, hx => by simp
  | r :: rows, w, h, x, 0, hx => by
    have := h r (by simp)
    simp [List.getElem?_append, this, hx]
  | r :: rows, w, h, x, y + 1, hx => by
    have hr := h r (by simp)
    have ih := List.getElem?_flatten_rows rows w (fun q hq => h q (by simp [hq])) x y hx
    have h1 : ¬ x + w * (y + 1) < r.length := by rw [hr, Nat.mul_succ]; omega
    have h2 : x + w * (y + 1) - r.length = x + w * y := by rw [hr, Nat.mul_succ]; omega
    simp only [List.flatten_cons, List.getElem?_append, h1, if_false, h2, ih]
    simp

theorem Display.rowMajor_getElem? (d : Display) (x : Fin 64) (y : Fin 32) :
    d.rowMajor[x.val + 64 * y.val]? = some (Display.pixel d x y) := by
  rw [Display.rowMajor, List.getElem?_flatten_rows _ 64 (by simp) x.val y.val x.isLt]
  simp [Display.pixel]

theorem Display.rowMajor_length (d : Display) : d.rowMajor.length = 2048 := by
  have : d.toList.map (fun r => r.toList.length) = List.replicate 32 64 := by
    apply List.ext_getElem <;> simp
  simp only [Display.rowMajor, List.length_flatten, List.map_map, Function.comp_def, this]
  rfl

/-! ### One sprite row -/

/-- Whether one of the columns `cs` of the byte `b` is set and lands in display column `px`. -/
def columnsHit (vx : Nat) (b : Byte) (cs : List Nat) (px : Fin 64) : Bool :=
  cs.any fun c => b.getLsbD (7 - c) && decide (px = wrapColumn (vx + c))

theorem column_inj {vx c c' : Nat} (hc : c < 8) (hc' : c' < 8) (h : wrapColumn (vx + c) = wrapColumn (vx + c')) : c = c' := by
  have := congrArg Fin.val h
  simp only [wrapColumn] at this
  omega

theorem columnsHit_head_excludes {vx c : Nat} {b : Byte} {cs : List Nat} (hc : c < 8) (hcs : ∀ k ∈ cs, k < 8) (hn : c ∉ cs) :
    columnsHit vx b cs (wrapColumn (vx + c)) = false := by
  simp only [columnsHit, List.any_eq_false, Bool.and_eq_true, decide_eq_true_eq, not_and]
  intro k hk _ h
  exact hn (column_inj hc (hcs k hk) h ▸ hk)

theorem Drawing.pixel_columns (vx : Nat) (py : Fin 32) (b : Byte) (px : Fin 64) (qy : Fin 32) :
    ∀ (cs : List Nat) (d : Drawing), cs.Nodup → (∀ c ∈ cs, c < 8) →
    Display.pixel (Drawing.columns vx py b cs d).disp px qy =
      (Display.pixel d.disp px qy ^^ (decide (qy = py) && columnsHit vx b cs px))
  | [], d, _, _ => by simp [Drawing.columns, columnsHit]
  | c :: cs, d, hn, hc => by
    rw [List.nodup_cons] at hn
    have hc8 := hc c (by simp)
    have hcs : ∀ k ∈ cs, k < 8 := fun k hk => hc k (by simp [hk])
    rw [Drawing.columns, Drawing.pixel_columns vx py b px qy cs _ hn.2 hcs]
    have hcons : columnsHit vx b (c :: cs) px =
        ((b.getLsbD (7 - c) && decide (px = wrapColumn (vx + c))) || columnsHit vx b cs px) := rfl
    rw [hcons]
    by_cases hb : b.getLsbD (7 - c) = true
    · simp only [hb, if_true, Drawing.plot, Display.pixel_toggle, Bool.true_and]
      by_cases hx : px = wrapColumn (vx + c)
      · subst hx
        rw [columnsHit_head_excludes hc8 hcs hn.1]
        simp
      · simp [hx]
    · simp [hb]

theorem Drawing.collision_columns (vx : Nat) (py : Fin 32) (b : Byte) :
    ∀ (cs : List Nat) (d : Drawing), cs.Nodup → (∀ c ∈ cs, c < 8) →
    ((Drawing.columns vx py b cs d).collision = true ↔
      d.collision = true ∨ ∃ px, columnsHit vx b cs px = true ∧ Display.pixel d.disp px py = true)
  | [], d, _, _ => by simp [Drawing.columns, columnsHit]
  | c :: cs, d, hn, hc => by
    rw [List.nodup_cons] at hn
    have hc8 := hc c (by simp)
    have hcs : ∀ k ∈ cs, k < 8 := fun k hk => hc k (by simp [hk])
    rw [Drawing.columns, Drawing.collision_columns vx py b cs _ hn.2 hcs]
    have hcons : ∀ px, columnsHit vx b (c :: cs) px =
        ((b.getLsbD (7 - c) && decide (px = wrapColumn (vx + c))) || columnsHit vx b cs px) := fun _ => rfl
    by_cases hb : b.getLsbD (7 - c) = true
    · simp only [hb, if_true, Drawing.plot, Display.pixel_toggle, hcons, Bool.true_and, Bool.or_eq_true, decide_eq_true_eq]
      constructor
      · rintro ((h | h) | ⟨px, h1, h2⟩)
        · exact .inl h
        · exact .inr ⟨_, .inl rfl, h⟩
        · by_cases hx : px = wrapColumn (vx + c)
          · subst hx
            rw [columnsHit_head_excludes hc8 hcs hn.1] at h1
            exact absurd h1 (by decide)
          · exact .inr ⟨px, .inr h1, by simpa [hx] using h2⟩
      · rintro (h | ⟨px, rfl | h1, h2⟩)
        · exact .inl (.inl h)
        · exact .inl (.inr h2)
        · by_cases hx : px = wrapColumn (vx + c)
          · subst hx
            exact .inl (.inr h2)
          · exact .inr ⟨px, h1, by simpa [hx] using h2⟩
    · simp [hb, hcons]

theorem range8_nodup : (List.range 8).Nodup := List.nodup_range

theorem range8_lt : ∀ c ∈ List.range 8, c < 8 := fun _ h => List.mem_range.1 h

/-- A byte's row: the column of `px` counted from `vx`, if it is one of the eight, and its bit. -/
theorem columnsHit_range (vx : Nat) (b : Byte) (px : Fin 64) :
    columnsHit vx b (List.range 8) px =
      (decide ((px.val + 64 - vx % 64) % 64 < 8) && b.getLsbD (7 - (px.val + 64 - vx % 64) % 64)) := by
  have hpx := px.isLt
  rw [Bool.eq_iff_iff]
  simp only [columnsHit, List.any_eq_true, List.mem_range, Bool.and_eq_true, decide_eq_true_eq]
  constructor
  · rintro ⟨c, hc, hb, h⟩
    have hv := congrArg Fin.val h
    simp only [wrapColumn] at hv
    have : (px.val + 64 - vx % 64) % 64 = c := by omega
    rw [this]
    exact ⟨hc, hb⟩
  · rintro ⟨hc, hb⟩
    refine ⟨_, hc, hb, Fin.ext ?_⟩
    simp only [wrapColumn]
    omega

/-! ### A whole sprite -/

/-- Whether a set bit of one of the rows, the first of them row `r`, lands on the display pixel. -/
def rowsHit (vx vy : Nat) (px : Fin 64) (py : Fin 32) : Nat → List Byte → Bool
  | _, [] => false
  | r, b :: bs => (decide (py = wrapRow (vy + r)) && columnsHit vx b (List.range 8) px) || rowsHit vx vy px py (r + 1) bs

theorem rowsHit_head_excludes (vx vy : Nat) (px : Fin 64) (r : Nat) : ∀ (bs : List Byte) (j : Nat), r < j → j + bs.length ≤ r + 32 →
    rowsHit vx vy px (wrapRow (vy + r)) j bs = false
  | [], _, _, _ => rfl
  | b :: bs, j, hj, hl => by
    simp only [List.length_cons] at hl
    rw [rowsHit, rowsHit_head_excludes vx vy px r bs (j + 1) (by omega) (by omega)]
    have : wrapRow (vy + r) ≠ wrapRow (vy + j) := by
      intro h
      have := congrArg Fin.val h
      simp only [wrapRow] at this
      omega
    simp [this]

theorem Drawing.pixel_rows (vx vy : Nat) (px : Fin 64) (py : Fin 32) : ∀ (bs : List Byte) (r : Nat) (d : Drawing), bs.length ≤ 32 →
    Display.pixel (Drawing.rows vx vy r bs d).disp px py = (Display.pixel d.disp px py ^^ rowsHit vx vy px py r bs)
  | [], r, d, _ => by simp [Drawing.rows, rowsHit]
  | b :: bs, r, d, hl => by
    simp only [List.length_cons] at hl
    rw [Drawing.rows, Drawing.pixel_rows vx vy px py bs (r + 1) _ (by omega),
      Drawing.pixel_columns _ _ _ _ _ _ _ range8_nodup range8_lt, rowsHit]
    by_cases hy : py = wrapRow (vy + r)
    · subst hy
      rw [rowsHit_head_excludes vx vy px r bs (r + 1) (by omega) (by omega)]
      simp
    · simp [hy]

theorem Drawing.collision_rows (vx vy : Nat) : ∀ (bs : List Byte) (r : Nat) (d : Drawing), bs.length ≤ 32 →
    ((Drawing.rows vx vy r bs d).collision = true ↔
      d.collision = true ∨ ∃ px py, rowsHit vx vy px py r bs = true ∧ Display.pixel d.disp px py = true)
  | [], r, d, _ => by simp [Drawing.rows, rowsHit]
  | b :: bs, r, d, hl => by
    simp only [List.length_cons] at hl
    rw [Drawing.rows, Drawing.collision_rows vx vy bs (r + 1) _ (by omega),
      Drawing.collision_columns _ _ _ _ _ range8_nodup range8_lt]
    simp only [rowsHit, Bool.or_eq_true, Bool.and_eq_true, decide_eq_true_eq,
      Drawing.pixel_columns _ _ _ _ _ _ _ range8_nodup range8_lt]
    constructor
    · rintro ((h | ⟨px, h1, h2⟩) | ⟨px, py, h1, h2⟩)
      · exact .inl h
      · exact .inr ⟨px, _, .inl ⟨rfl, h1⟩, h2⟩
      · by_cases hy : py = wrapRow (vy + r)
        · subst hy
          rw [rowsHit_head_excludes vx vy px r bs (r + 1) (by omega) (by omega)] at h1
          exact absurd h1 (by decide)
        · exact .inr ⟨px, py, .inr h1, by simpa [hy] using h2⟩
    · rintro (h | ⟨px, py, ⟨rfl, h1⟩ | h1, h2⟩)
      · exact .inl (.inl h)
      · exact .inl (.inr ⟨px, h1, h2⟩)
      · by_cases hy : py = wrapRow (vy + r)
        · subst hy
          rw [rowsHit_head_excludes vx vy px r bs (r + 1) (by omega) (by omega)] at h1
          exact absurd h1 (by decide)
        · exact .inr ⟨px, py, h1, by simpa [hy] using h2⟩

theorem rowsHit_eq (vx vy : Nat) (px : Fin 64) (py : Fin 32) : ∀ (bs : List Byte) (r : Nat), r + bs.length ≤ 32 →
    rowsHit vx vy px py r bs =
      (decide ((px.val + 64 - vx % 64) % 64 < 8) && decide (r ≤ (py.val + 32 - vy % 32) % 32) &&
        (bs.getD ((py.val + 32 - vy % 32) % 32 - r) 0).getLsbD (7 - (px.val + 64 - vx % 64) % 64))
  | [], r, _ => by simp [rowsHit]
  | b :: bs, r, hl => by
    simp only [List.length_cons] at hl
    have hpy := py.isLt
    rw [rowsHit, rowsHit_eq vx vy px py bs (r + 1) (by omega), columnsHit_range]
    by_cases hy : py = wrapRow (vy + r)
    · have hv := congrArg Fin.val hy
      simp only [wrapRow] at hv
      have h1 : (py.val + 32 - vy % 32) % 32 = r := by omega
      rw [h1]
      simp [hy]
    · have h1 : (py.val + 32 - vy % 32) % 32 ≠ r := by
        intro h
        apply hy
        apply Fin.ext
        simp only [wrapRow]
        omega
      by_cases h2 : r < (py.val + 32 - vy % 32) % 32
      · have h3 : (py.val + 32 - vy % 32) % 32 - r = ((py.val + 32 - vy % 32) % 32 - (r + 1)) + 1 := by omega
        have h4 : r ≤ (py.val + 32 - vy % 32) % 32 := by omega
        have h5 : r + 1 ≤ (py.val + 32 - vy % 32) % 32 := by omega
        rw [h3]
        simp only [hy, decide_false, Bool.false_and, Bool.false_or, List.getD_cons_succ, h4, h5]
      · have h4 : ¬ r ≤ (py.val + 32 - vy % 32) % 32 := by omega
        have h5 : ¬ r + 1 ≤ (py.val + 32 - vy % 32) % 32 := by omega
        simp only [hy, h4, h5, decide_false, Bool.false_and, Bool.and_false, Bool.or_false]

theorem rowsHit_eq_spriteBit (vx vy : Nat) (px : Fin 64) (py : Fin 32) (bs : List Byte) (h : bs.length ≤ 32) :
    rowsHit vx vy px py 0 bs = spriteBit vx vy bs px py := by
  rw [rowsHit_eq vx vy px py bs 0 (by omega)]
  simp [spriteBit]

/-- Every pixel after a sprite is drawn: its old value XOR the sprite bit that maps to it (R224). -/
theorem drawSprite_pixel (vx vy : Nat) (sprite : List Byte) (d : Display) (px : Fin 64) (py : Fin 32) (h : sprite.length ≤ 32) :
    Display.pixel (drawSprite vx vy sprite d).disp px py = (Display.pixel d px py ^^ spriteBit vx vy sprite px py) := by
  rw [drawSprite, Drawing.pixel_rows _ _ _ _ _ _ _ h, rowsHit_eq_spriteBit _ _ _ _ _ h]

/-- A collision is reported exactly when a set sprite bit maps to a pixel that was set (R223). -/
theorem drawSprite_collision (vx vy : Nat) (sprite : List Byte) (d : Display) (h : sprite.length ≤ 32) :
    (drawSprite vx vy sprite d).collision = true ↔
      ∃ px py, spriteBit vx vy sprite px py = true ∧ Display.pixel d px py = true := by
  rw [drawSprite, Drawing.collision_rows _ _ _ _ _ h]
  simp [rowsHit_eq_spriteBit _ _ _ _ _ h]

end Sys2Proof.Machine
end

