-- ==== Sys2Proof/Laws/Encoding.lean ====
section
/-! SUPPORT. The fields read from a word of each format, the word put together again from its fields, and what the mask of a row
leaves of a word. -/

namespace Sys2Proof

theorem regBits_toNat (x : RegIdx) : (regBits x).toNat = x.val := by
  simp [regBits]

/-! ### Words as numbers -/

theorem formatFA_toNat (g : BitVec 4) (nnn : Word) : (formatFA g nnn).toNat = g.toNat * 4096 + nnn.toNat % 4096 := by
  have h : nnn.toNat % 4096 < 2 ^ 12 := by omega
  simp only [formatFA, BitVec.toNat_append, BitVec.toNat_setWidth]
  rw [← Nat.shiftLeft_add_eq_or_of_lt (by omega), Nat.shiftLeft_eq]

theorem formatFXK_toNat (g : BitVec 4) (x : RegIdx) (kk : Byte) :
    (formatFXK g x kk).toNat = g.toNat * 4096 + x.val * 256 + kk.toNat := by
  have h1 := x.isLt
  have h2 := kk.isLt
  simp only [formatFXK, BitVec.toNat_append, regBits_toNat]
  rw [← Nat.shiftLeft_add_eq_or_of_lt (by omega), ← Nat.shiftLeft_add_eq_or_of_lt (by omega), Nat.shiftLeft_eq, Nat.shiftLeft_eq]
  omega

theorem formatFXYN_toNat (g : BitVec 4) (x y : RegIdx) (n : BitVec 4) :
    (formatFXYN g x y n).toNat = g.toNat * 4096 + x.val * 256 + y.val * 16 + n.toNat := by
  have h1 := x.isLt
  have h2 := y.isLt
  have h3 := n.isLt
  simp only [formatFXYN, BitVec.toNat_append, regBits_toNat]
  rw [← Nat.shiftLeft_add_eq_or_of_lt (by omega), ← Nat.shiftLeft_add_eq_or_of_lt (by omega),
    ← Nat.shiftLeft_add_eq_or_of_lt (by omega), Nat.shiftLeft_eq, Nat.shiftLeft_eq, Nat.shiftLeft_eq]
  omega

theorem fieldG_toNat (op : Word) : (fieldG op).toNat = op.toNat / 4096 := by
  have := op.isLt
  simp only [fieldG, BitVec.extractLsb'_toNat, Nat.shiftRight_eq_div_pow]; omega

theorem fieldX_val (op : Word) : (fieldX op).val = op.toNat / 256 % 16 := by
  simp only [fieldX, BitVec.extractLsb'_toNat, Nat.shiftRight_eq_div_pow]

theorem fieldY_val (op : Word) : (fieldY op).val = op.toNat / 16 % 16 := by
  simp only [fieldY, BitVec.extractLsb'_toNat, Nat.shiftRight_eq_div_pow]

theorem fieldN_toNat (op : Word) : (fieldN op).toNat = op.toNat % 16 := by
  simp only [fieldN, BitVec.extractLsb'_toNat, Nat.shiftRight_eq_div_pow]; omega

theorem fieldKk_toNat (op : Word) : (fieldKk op).toNat = op.toNat % 256 := by
  simp only [fieldKk, BitVec.extractLsb'_toNat, Nat.shiftRight_eq_div_pow]; omega

theorem fieldNnn_toNat (op : Word) : (fieldNnn op).toNat = op.toNat % 4096 := by
  simp only [fieldNnn, BitVec.toNat_setWidth, BitVec.extractLsb'_toNat, Nat.shiftRight_eq_div_pow]; omega

/-! ### The fields of a word of each format -/

@[simp] theorem fieldG_formatFA (g : BitVec 4) (nnn : Word) : fieldG (formatFA g nnn) = g := by
  apply BitVec.eq_of_toNat_eq; rw [fieldG_toNat, formatFA_toNat]; omega

theorem fieldNnn_formatFA (g : BitVec 4) (nnn : Word) (h : addressFits nnn = true) : fieldNnn (formatFA g nnn) = nnn := by
  simp only [addressFits, decide_eq_true_eq] at h
  apply BitVec.eq_of_toNat_eq; rw [fieldNnn_toNat, formatFA_toNat]; omega

@[simp] theorem fieldG_formatFXK (g : BitVec 4) (x : RegIdx) (kk : Byte) : fieldG (formatFXK g x kk) = g := by
  have := x.isLt; have := kk.isLt
  apply BitVec.eq_of_toNat_eq; rw [fieldG_toNat, formatFXK_toNat]; omega

@[simp] theorem fieldX_formatFXK (g : BitVec 4) (x : RegIdx) (kk : Byte) : fieldX (formatFXK g x kk) = x := by
  have := x.isLt; have := kk.isLt
  apply Fin.ext; rw [fieldX_val, formatFXK_toNat]; omega

@[simp] theorem fieldKk_formatFXK (g : BitVec 4) (x : RegIdx) (kk : Byte) : fieldKk (formatFXK g x kk) = kk := by
  have := x.isLt; have := kk.isLt
  apply BitVec.eq_of_toNat_eq; rw [fieldKk_toNat, formatFXK_toNat]; omega

@[simp] theorem fieldG_formatFXYN (g : BitVec 4) (x y : RegIdx) (n : BitVec 4) : fieldG (formatFXYN g x y n) = g := by
  have := x.isLt; have := y.isLt; have := n.isLt
  apply BitVec.eq_of_toNat_eq; rw [fieldG_toNat, formatFXYN_toNat]; omega

@[simp] theorem fieldX_formatFXYN (g : BitVec 4) (x y : RegIdx) (n : BitVec 4) : fieldX (formatFXYN g x y n) = x := by
  have := x.isLt; have := y.isLt; have := n.isLt
  apply Fin.ext; rw [fieldX_val, formatFXYN_toNat]; omega

@[simp] theorem fieldY_formatFXYN (g : BitVec 4) (x y : RegIdx) (n : BitVec 4) : fieldY (formatFXYN g x y n) = y := by
  have := x.isLt; have := y.isLt; have := n.isLt
  apply Fin.ext; rw [fieldY_val, formatFXYN_toNat]; omega

@[simp] theorem fieldN_formatFXYN (g : BitVec 4) (x y : RegIdx) (n : BitVec 4) : fieldN (formatFXYN g x y n) = n := by
  have := x.isLt; have := y.isLt; have := n.isLt
  apply BitVec.eq_of_toNat_eq; rw [fieldN_toNat, formatFXYN_toNat]; omega

/-! ### A word is its fields -/

theorem formatFA_fields (op : Word) : formatFA (fieldG op) (fieldNnn op) = op := by
  apply BitVec.eq_of_toNat_eq; rw [formatFA_toNat, fieldG_toNat, fieldNnn_toNat]; omega

theorem formatFXK_fields (op : Word) : formatFXK (fieldG op) (fieldX op) (fieldKk op) = op := by
  apply BitVec.eq_of_toNat_eq; rw [formatFXK_toNat, fieldG_toNat, fieldX_val, fieldKk_toNat]; omega

theorem formatFXYN_fields (op : Word) : formatFXYN (fieldG op) (fieldX op) (fieldY op) (fieldN op) = op := by
  apply BitVec.eq_of_toNat_eq; rw [formatFXYN_toNat, fieldG_toNat, fieldX_val, fieldY_val, fieldN_toNat]; omega

theorem wordOfBytes_toNat (hi lo : Byte) : (wordOfBytes hi lo).toNat = hi.toNat * 256 + lo.toNat := by
  have := lo.isLt
  simp only [wordOfBytes, BitVec.toNat_append]
  rw [← Nat.shiftLeft_add_eq_or_of_lt (by omega), Nat.shiftLeft_eq]

/-- The two stored bytes of a word make the word again (20_memory.md R63). -/
theorem wordOfBytes_bytes (op : Word) : wordOfBytes (op.extractLsb' 8 8) (op.extractLsb' 0 8) = op := by
  apply BitVec.eq_of_toNat_eq
  have := op.isLt
  simp only [wordOfBytes_toNat, BitVec.extractLsb'_toNat, Nat.shiftRight_eq_div_pow]; omega

/-! ### What the mask of a row leaves (30_encoding.md R96) -/

theorem formatFA_mask (g : BitVec 4) (nnn : Word) : formatFA g nnn &&& 0xF000#16 = formatFA g 0#16 := by
  apply BitVec.eq_of_getLsbD_eq
  intro k hk
  simp only [formatFA, BitVec.getLsbD_and, BitVec.getLsbD_append]
  interval_cases k <;> simp

theorem formatFXK_maskF000 (g : BitVec 4) (x : RegIdx) (kk : Byte) : formatFXK g x kk &&& 0xF000#16 = formatFXK g 0 0#8 := by
  apply BitVec.eq_of_getLsbD_eq
  intro k hk
  simp only [formatFXK, BitVec.getLsbD_and, BitVec.getLsbD_append]
  interval_cases k <;> simp [regBits]

theorem formatFXK_maskF0FF (g : BitVec 4) (x : RegIdx) (kk : Byte) : formatFXK g x kk &&& 0xF0FF#16 = formatFXK g 0 kk := by
  apply BitVec.eq_of_getLsbD_eq
  intro k hk
  simp only [formatFXK, BitVec.getLsbD_and, BitVec.getLsbD_append]
  interval_cases k <;> simp [regBits]

theorem formatFXYN_maskF00F (g : BitVec 4) (x y : RegIdx) (n : BitVec 4) :
    formatFXYN g x y n &&& 0xF00F#16 = formatFXYN g 0 0 n := by
  apply BitVec.eq_of_getLsbD_eq
  intro k hk
  simp only [formatFXYN, BitVec.getLsbD_and, BitVec.getLsbD_append]
  interval_cases k <;> simp [regBits]

theorem formatFXYN_maskF000 (g : BitVec 4) (x y : RegIdx) (n : BitVec 4) :
    formatFXYN g x y n &&& 0xF000#16 = formatFXYN g 0 0 0#4 := by
  apply BitVec.eq_of_getLsbD_eq
  intro k hk
  simp only [formatFXYN, BitVec.getLsbD_and, BitVec.getLsbD_append]
  interval_cases k <;> simp [regBits]

end Sys2Proof
end

