-- ==== Sys2Proof/Laws/Exec.lean ====
section
/-! SUPPORT. What the execution of an instruction can do: the instructions that can fault as one case distinction each, over the
shared operations, and the inversion of every execution: it completes with the latch as it was, or takes a fault and changes
nothing else. -/

namespace Sys2Proof.Machine

theorem execRet_eq (s : State) : exec .ret s =
    if _h : s.sp.val = 0 then .next (s.takeFault .stackUnderflow)
    else .next { s.advance with pc := s.stack[s.sp.val - 1]'(by omega), sp := ⟨s.sp.val - 1, by omega⟩ } := by
  by_cases h : s.sp.val = 0
  · rw [dif_pos h]
    simp only [exec, execRet, completeOrFault, State.pop_empty s.advance h]
  · rw [dif_neg h]
    simp only [exec, execRet, completeOrFault, State.pop_some s.advance h]
    rfl

theorem execCallNnn_eq (nnn : Word) (s : State) : exec (.callNnn nnn) s =
    if h : s.sp.val < 16 then
      .next { s.advance with pc := nnn, stack := s.stack.set s.sp.val (s.pc + 2), sp := ⟨s.sp.val + 1, by omega⟩ }
    else .next (s.takeFault .stackOverflow) := by
  by_cases h : s.sp.val < 16
  · rw [dif_pos h]
    simp only [exec, execCallNnn, completeOrFault, State.push_room s.advance _ h]
    rfl
  · rw [dif_neg h]
    have h16 : s.advance.sp.val = 16 := by have := s.sp.isLt; show s.sp.val = 16; omega
    simp only [exec, execCallNnn, completeOrFault, State.push_full s.advance _ h16]

theorem execLdBVx_eq (x : RegIdx) (s : State) : exec (.ldBVx x) s =
    if s.i.toNat + 2 ≤ 4095 then
      .next { s.advance with mem := Memory.writeList s.font s.mem s.i.toNat (bcdDigits s.v[x]) }
    else .next (s.takeFault (.addressOutOfRange (firstAddressOutside s.i.toNat))) := by
  simp only [exec, execLdBVx, completeOrFault, State.storeBytes_eq]
  have hne : ¬ bcdDigits (s.advance.reg x) = [] := by simp [bcdDigits]
  by_cases h : s.i.toNat + 2 ≤ 4095
  · have h' : s.advance.base + (bcdDigits (s.advance.reg x)).length ≤ 4096 := by
      rw [bcdDigits_length]; show s.i.toNat + 3 ≤ 4096; omega
    simp only [h, h', hne, false_or, if_true]
    rfl
  · have h' : ¬ s.advance.base + (bcdDigits (s.advance.reg x)).length ≤ 4096 := by
      rw [bcdDigits_length]; show ¬ s.i.toNat + 3 ≤ 4096; omega
    simp only [h, h', hne, false_or, if_false]
    rfl

theorem execLdMemVx_eq (x : RegIdx) (s : State) : exec (.ldMemVx x) s =
    if s.i.toNat + x.val ≤ 4095 then
      .next { s.advance with mem := Memory.writeList s.font s.mem s.i.toNat (s.regsUpTo x) }
    else .next (s.takeFault (.addressOutOfRange (firstAddressOutside s.i.toNat))) := by
  simp only [exec, execLdMemVx, completeOrFault, State.storeBytes_eq]
  have hne : ¬ s.advance.regsUpTo x = [] := by
    intro h; have := congrArg List.length h; simp at this
  by_cases h : s.i.toNat + x.val ≤ 4095
  · have h' : s.advance.base + (s.advance.regsUpTo x).length ≤ 4096 := by
      rw [State.regsUpTo_length]; show s.i.toNat + (x.val + 1) ≤ 4096; omega
    simp only [h, h', hne, false_or, if_true]
    rfl
  · have h' : ¬ s.advance.base + (s.advance.regsUpTo x).length ≤ 4096 := by
      rw [State.regsUpTo_length]; show ¬ s.i.toNat + (x.val + 1) ≤ 4096; omega
    simp only [h, h', hne, false_or, if_false]
    rfl

theorem execLdVxMem_eq (x : RegIdx) (s : State) : exec (.ldVxMem x) s =
    if s.i.toNat + x.val ≤ 4095 then .next (s.advance.setRegs (s.spriteAt (x.val + 1)))
    else .next (s.takeFault (.addressOutOfRange (firstAddressOutside s.i.toNat))) := by
  simp only [exec, execLdVxMem, completeOrFault, State.loadBytes_eq]
  by_cases h : s.i.toNat + x.val ≤ 4095
  · have h' : x.val + 1 = 0 ∨ s.advance.base + (x.val + 1) ≤ 4096 := by
      right; show s.i.toNat + (x.val + 1) ≤ 4096; omega
    simp only [h, h', if_true]
    rfl
  · have h' : ¬ (x.val + 1 = 0 ∨ s.advance.base + (x.val + 1) ≤ 4096) := by
      show ¬ (x.val + 1 = 0 ∨ s.i.toNat + (x.val + 1) ≤ 4096); omega
    simp only [h, h', if_false]
    rfl

theorem execDrwVxVyN_eq (x y : RegIdx) (n : Nat) (s : State) : exec (.drwVxVyN x y n) s =
    if n = 0 ∨ s.i.toNat + n ≤ 4096 then
      let d := drawSprite (s.v[x]).toNat (s.v[y]).toNat (s.spriteAt n) s.disp
      .next { s.advance with disp := d.disp, v := s.v.set 15 (flagByte d.collision) }
    else .next (s.takeFault (.addressOutOfRange (firstAddressOutside s.i.toNat))) := by
  simp only [exec, execDrwVxVyN, completeOrFault, State.loadBytes_eq]
  by_cases h : n = 0 ∨ s.i.toNat + n ≤ 4096
  · have h' : n = 0 ∨ s.advance.base + n ≤ 4096 := h
    simp only [h, h', if_true]
    rfl
  · have h' : ¬ (n = 0 ∨ s.advance.base + n ≤ 4096) := h
    simp only [h, h', if_false]
    rfl

theorem execSkpVx_eq (x : RegIdx) (s : State) : exec (.skpVx x) s =
    if h : (s.v[x]).toNat < 16 then .next (s.advance.skipIf s.key[(s.v[x]).toNat])
    else .next (s.takeFault (.invalidKeyIndex (s.v[x]).toNat)) := by
  by_cases h : (s.v[x]).toNat < 16
  · rw [dif_pos h]
    simp only [exec, execSkpVx, completeOrFault, keyIndex_small (s.advance.reg x) h]
    rfl
  · rw [dif_neg h]
    simp only [exec, execSkpVx, completeOrFault, keyIndex_large (s.advance.reg x) (Nat.le_of_not_lt h)]
    rfl

theorem execSknpVx_eq (x : RegIdx) (s : State) : exec (.sknpVx x) s =
    if h : (s.v[x]).toNat < 16 then .next (s.advance.skipIf (!s.key[(s.v[x]).toNat]))
    else .next (s.takeFault (.invalidKeyIndex (s.v[x]).toNat)) := by
  by_cases h : (s.v[x]).toNat < 16
  · rw [dif_pos h]
    simp only [exec, execSknpVx, completeOrFault, keyIndex_small (s.advance.reg x) h]
    rfl
  · rw [dif_neg h]
    simp only [exec, execSknpVx, completeOrFault, keyIndex_large (s.advance.reg x) (Nat.le_of_not_lt h)]
    rfl

theorem execLdVxK_eq (x : RegIdx) (s : State) : exec (.ldVxK x) s =
    match lowestKey s.key with
    | some k => .next (s.advance.setReg x (BitVec.ofNat 8 k.val))
    | none => .next ((s.advance.setPc (s.pc + 2 - 2)).setWait true) := by
  simp only [exec, execLdVxK, complete, State.advance_key, State.advance_pc]
  cases lowestKey s.key <;> rfl

/-! ### The instructions that cannot fault: one lemma each, over the named updates of the advanced state -/

@[simp] theorem execJpNnn_eq (nnn : Word) (s : State) : exec (.jpNnn nnn) s =
    .next (s.advance.setPc nnn) := rfl

@[simp] theorem execSeVxKk_eq (x : RegIdx) (kk : Byte) (s : State) : exec (.seVxKk x kk) s =
    .next (s.advance.skipIf (s.v[x] == kk)) := rfl

@[simp] theorem execSneVxKk_eq (x : RegIdx) (kk : Byte) (s : State) : exec (.sneVxKk x kk) s =
    .next (s.advance.skipIf (s.v[x] != kk)) := rfl

@[simp] theorem execSeVxVy_eq (x y : RegIdx) (s : State) : exec (.seVxVy x y) s =
    .next (s.advance.skipIf (s.v[x] == s.v[y])) := rfl

@[simp] theorem execSneVxVy_eq (x y : RegIdx) (s : State) : exec (.sneVxVy x y) s =
    .next (s.advance.skipIf (s.v[x] != s.v[y])) := rfl

@[simp] theorem execJpV0Nnn_eq (nnn : Word) (s : State) : exec (.jpV0Nnn nnn) s =
    .next (s.advance.setPc (indexedTarget (s.v[(0 : RegIdx)]) nnn)) := rfl

@[simp] theorem execLdVxKk_eq (x : RegIdx) (kk : Byte) (s : State) : exec (.ldVxKk x kk) s =
    .next (s.advance.setReg x kk) := rfl

@[simp] theorem execAddVxKk_eq (x : RegIdx) (kk : Byte) (s : State) : exec (.addVxKk x kk) s =
    .next (s.advance.setReg x (s.v[x] + kk)) := rfl

@[simp] theorem execLdVxVy_eq (x y : RegIdx) (s : State) : exec (.ldVxVy x y) s =
    .next (s.advance.setReg x (s.v[y])) := rfl

@[simp] theorem execOrVxVy_eq (x y : RegIdx) (s : State) : exec (.orVxVy x y) s =
    .next (s.advance.setReg x (s.v[x] ||| s.v[y])) := rfl

@[simp] theorem execAndVxVy_eq (x y : RegIdx) (s : State) : exec (.andVxVy x y) s =
    .next (s.advance.setReg x (s.v[x] &&& s.v[y])) := rfl

@[simp] theorem execXorVxVy_eq (x y : RegIdx) (s : State) : exec (.xorVxVy x y) s =
    .next (s.advance.setReg x (s.v[x] ^^^ s.v[y])) := rfl

@[simp] theorem execAddVxVy_eq (x y : RegIdx) (s : State) : exec (.addVxVy x y) s =
    .next (s.advance.setRegAndFlag x (s.v[x] + s.v[y]) (carryFlag (s.v[x]) (s.v[y]))) := rfl

@[simp] theorem execSubVxVy_eq (x y : RegIdx) (s : State) : exec (.subVxVy x y) s =
    .next (s.advance.setRegAndFlag x (s.v[x] - s.v[y]) (noBorrowFlag (s.v[x]) (s.v[y]))) := rfl

@[simp] theorem execShrVxVy_eq (x y : RegIdx) (s : State) : exec (.shrVxVy x y) s =
    .next (s.advance.setRegAndFlag x (s.v[x] >>> 1) (shiftedRightFlag (s.v[x]))) := rfl

@[simp] theorem execSubnVxVy_eq (x y : RegIdx) (s : State) : exec (.subnVxVy x y) s =
    .next (s.advance.setRegAndFlag x (s.v[y] - s.v[x]) (noBorrowFlag (s.v[y]) (s.v[x]))) := rfl

@[simp] theorem execShlVxVy_eq (x y : RegIdx) (s : State) : exec (.shlVxVy x y) s =
    .next (s.advance.setRegAndFlag x (s.v[x] <<< 1) (shiftedLeftFlag (s.v[x]))) := rfl

@[simp] theorem execRndVxKk_eq (x : RegIdx) (kk : Byte) (s : State) : exec (.rndVxKk x kk) s =
    .next ({ s.advance.setReg x (Config.entropy s.draws &&& kk) with draws := s.draws + 1 }) := rfl

@[simp] theorem execLdINnn_eq (nnn : Word) (s : State) : exec (.ldINnn nnn) s =
    .next (s.advance.setIndex nnn) := rfl

@[simp] theorem execAddIVx_eq (x : RegIdx) (s : State) : exec (.addIVx x) s =
    .next (s.advance.setIndex (indexSum s.i (s.v[x]))) := rfl

@[simp] theorem execLdFVx_eq (x : RegIdx) (s : State) : exec (.ldFVx x) s =
    .next (s.advance.setIndex (glyphAddress (s.v[x]))) := rfl

@[simp] theorem execCls_eq (s : State) : exec .cls s =
    .next (s.advance.setDisplay Display.clear) := rfl

@[simp] theorem execLdVxDT_eq (x : RegIdx) (s : State) : exec (.ldVxDT x) s =
    .next (s.advance.setReg x s.dt) := rfl

@[simp] theorem execLdDTVx_eq (x : RegIdx) (s : State) : exec (.ldDTVx x) s =
    .next (s.advance.setDelay (s.v[x])) := rfl

@[simp] theorem execLdSTVx_eq (x : RegIdx) (s : State) : exec (.ldSTVx x) s =
    .next (s.advance.setSound (s.v[x])) := rfl

/-- Every execution completes with the latch as it was, or takes a fault and changes nothing but the latch (R126). -/
theorem exec_cases (i : Instr) (s : State) :
    (∃ t, exec i s = .next t ∧ t.fault = s.fault) ∨ (∃ f, exec i s = .next (s.takeFault f)) := by
  cases i
  case ret =>
    rw [execRet_eq]
    split
    · exact .inr ⟨_, rfl⟩
    · exact .inl ⟨_, rfl, rfl⟩
  case callNnn =>
    rw [execCallNnn_eq]
    split
    · exact .inl ⟨_, rfl, rfl⟩
    · exact .inr ⟨_, rfl⟩
  case ldBVx =>
    rw [execLdBVx_eq]
    split
    · exact .inl ⟨_, rfl, rfl⟩
    · exact .inr ⟨_, rfl⟩
  case ldMemVx =>
    rw [execLdMemVx_eq]
    split
    · exact .inl ⟨_, rfl, rfl⟩
    · exact .inr ⟨_, rfl⟩
  case ldVxMem =>
    rw [execLdVxMem_eq]
    split
    · exact .inl ⟨_, rfl, rfl⟩
    · exact .inr ⟨_, rfl⟩
  case drwVxVyN =>
    rw [execDrwVxVyN_eq]
    split
    · exact .inl ⟨_, rfl, rfl⟩
    · exact .inr ⟨_, rfl⟩
  case skpVx =>
    rw [execSkpVx_eq]
    split
    · exact .inl ⟨_, rfl, by simp⟩
    · exact .inr ⟨_, rfl⟩
  case sknpVx =>
    rw [execSknpVx_eq]
    split
    · exact .inl ⟨_, rfl, by simp⟩
    · exact .inr ⟨_, rfl⟩
  case ldVxK =>
    rw [execLdVxK_eq]
    split <;> exact .inl ⟨_, rfl, by simp⟩
  all_goals exact .inl ⟨_, rfl, by simp⟩

/-- Every execution answers a next state. -/
theorem exec_answers (i : Instr) (s : State) : ∃ t, exec i s = .next t := by
  rcases exec_cases i s with ⟨t, h, _⟩ | ⟨f, h⟩
  · exact ⟨t, h⟩
  · exact ⟨_, h⟩

/-- An execution whose tick is given its entropy byte is the plain one unless the instruction is RND (R130). -/
theorem execWith_eq (rnd : Byte) (i : Instr) (s : State) (h : ∀ x kk, i ≠ .rndVxKk x kk) : execWith rnd i s = exec i s := by
  cases i <;> first | rfl | exact absurd rfl (h _ _)

end Sys2Proof.Machine
end

