-- ==== Sys2Proof/Laws/PerInstr.lean ====
section
/-! SUPPORT. The family EncodingMatchesRow: the word an instruction encodes to matches the instruction's own row of the opcode
map, and that row stands in the map (30_encoding.md R96). One lemma per constructor. -/

namespace Sys2Proof.Laws.EncodingMatchesRow

/-- `encode i & mask == match` for the row of `i`, which is a row of the map (R96). -/
def Statement (i : Instr) : Prop := (opcodeRow i).matchesWord (encode i) = true ∧ opcodeRow i ∈ opcodeTable

theorem cls : Statement .cls :=
  ⟨by decide, by simp [opcodeTable, opcodeRow]⟩

theorem ret : Statement .ret :=
  ⟨by decide, by simp [opcodeTable, opcodeRow]⟩

theorem jpNnn (nnn : Word) : Statement (.jpNnn nnn) :=
  ⟨by simp only [OpcodeRow.matchesWord, opcodeRow, encode]; rw [formatFA_mask]; decide, by simp [opcodeTable, opcodeRow]⟩

theorem callNnn (nnn : Word) : Statement (.callNnn nnn) :=
  ⟨by simp only [OpcodeRow.matchesWord, opcodeRow, encode]; rw [formatFA_mask]; decide, by simp [opcodeTable, opcodeRow]⟩

theorem seVxKk (x : RegIdx) (kk : Byte) : Statement (.seVxKk x kk) :=
  ⟨by simp only [OpcodeRow.matchesWord, opcodeRow, encode]; rw [formatFXK_maskF000]; decide, by simp [opcodeTable, opcodeRow]⟩

theorem sneVxKk (x : RegIdx) (kk : Byte) : Statement (.sneVxKk x kk) :=
  ⟨by simp only [OpcodeRow.matchesWord, opcodeRow, encode]; rw [formatFXK_maskF000]; decide, by simp [opcodeTable, opcodeRow]⟩

theorem seVxVy (x y : RegIdx) : Statement (.seVxVy x y) :=
  ⟨by simp only [OpcodeRow.matchesWord, opcodeRow, encode]; rw [formatFXYN_maskF00F]; decide, by simp [opcodeTable, opcodeRow]⟩

theorem ldVxKk (x : RegIdx) (kk : Byte) : Statement (.ldVxKk x kk) :=
  ⟨by simp only [OpcodeRow.matchesWord, opcodeRow, encode]; rw [formatFXK_maskF000]; decide, by simp [opcodeTable, opcodeRow]⟩

theorem addVxKk (x : RegIdx) (kk : Byte) : Statement (.addVxKk x kk) :=
  ⟨by simp only [OpcodeRow.matchesWord, opcodeRow, encode]; rw [formatFXK_maskF000]; decide, by simp [opcodeTable, opcodeRow]⟩

theorem ldVxVy (x y : RegIdx) : Statement (.ldVxVy x y) :=
  ⟨by simp only [OpcodeRow.matchesWord, opcodeRow, encode]; rw [formatFXYN_maskF00F]; decide, by simp [opcodeTable, opcodeRow]⟩

theorem orVxVy (x y : RegIdx) : Statement (.orVxVy x y) :=
  ⟨by simp only [OpcodeRow.matchesWord, opcodeRow, encode]; rw [formatFXYN_maskF00F]; decide, by simp [opcodeTable, opcodeRow]⟩

theorem andVxVy (x y : RegIdx) : Statement (.andVxVy x y) :=
  ⟨by simp only [OpcodeRow.matchesWord, opcodeRow, encode]; rw [formatFXYN_maskF00F]; decide, by simp [opcodeTable, opcodeRow]⟩

theorem xorVxVy (x y : RegIdx) : Statement (.xorVxVy x y) :=
  ⟨by simp only [OpcodeRow.matchesWord, opcodeRow, encode]; rw [formatFXYN_maskF00F]; decide, by simp [opcodeTable, opcodeRow]⟩

theorem addVxVy (x y : RegIdx) : Statement (.addVxVy x y) :=
  ⟨by simp only [OpcodeRow.matchesWord, opcodeRow, encode]; rw [formatFXYN_maskF00F]; decide, by simp [opcodeTable, opcodeRow]⟩

theorem subVxVy (x y : RegIdx) : Statement (.subVxVy x y) :=
  ⟨by simp only [OpcodeRow.matchesWord, opcodeRow, encode]; rw [formatFXYN_maskF00F]; decide, by simp [opcodeTable, opcodeRow]⟩

theorem shrVxVy (x y : RegIdx) : Statement (.shrVxVy x y) :=
  ⟨by simp only [OpcodeRow.matchesWord, opcodeRow, encode]; rw [formatFXYN_maskF00F]; decide, by simp [opcodeTable, opcodeRow]⟩

theorem subnVxVy (x y : RegIdx) : Statement (.subnVxVy x y) :=
  ⟨by simp only [OpcodeRow.matchesWord, opcodeRow, encode]; rw [formatFXYN_maskF00F]; decide, by simp [opcodeTable, opcodeRow]⟩

theorem shlVxVy (x y : RegIdx) : Statement (.shlVxVy x y) :=
  ⟨by simp only [OpcodeRow.matchesWord, opcodeRow, encode]; rw [formatFXYN_maskF00F]; decide, by simp [opcodeTable, opcodeRow]⟩

theorem sneVxVy (x y : RegIdx) : Statement (.sneVxVy x y) :=
  ⟨by simp only [OpcodeRow.matchesWord, opcodeRow, encode]; rw [formatFXYN_maskF00F]; decide, by simp [opcodeTable, opcodeRow]⟩

theorem ldINnn (nnn : Word) : Statement (.ldINnn nnn) :=
  ⟨by simp only [OpcodeRow.matchesWord, opcodeRow, encode]; rw [formatFA_mask]; decide, by simp [opcodeTable, opcodeRow]⟩

theorem jpV0Nnn (nnn : Word) : Statement (.jpV0Nnn nnn) :=
  ⟨by simp only [OpcodeRow.matchesWord, opcodeRow, encode]; rw [formatFA_mask]; decide, by simp [opcodeTable, opcodeRow]⟩

theorem rndVxKk (x : RegIdx) (kk : Byte) : Statement (.rndVxKk x kk) :=
  ⟨by simp only [OpcodeRow.matchesWord, opcodeRow, encode]; rw [formatFXK_maskF000]; decide, by simp [opcodeTable, opcodeRow]⟩

theorem drwVxVyN (x y : RegIdx) (n : Nat) : Statement (.drwVxVyN x y n) :=
  ⟨by simp only [OpcodeRow.matchesWord, opcodeRow, encode]; rw [formatFXYN_maskF000]; decide, by simp [opcodeTable, opcodeRow]⟩

theorem skpVx (x : RegIdx) : Statement (.skpVx x) :=
  ⟨by simp only [OpcodeRow.matchesWord, opcodeRow, encode]; rw [formatFXK_maskF0FF]; decide, by simp [opcodeTable, opcodeRow]⟩

theorem sknpVx (x : RegIdx) : Statement (.sknpVx x) :=
  ⟨by simp only [OpcodeRow.matchesWord, opcodeRow, encode]; rw [formatFXK_maskF0FF]; decide, by simp [opcodeTable, opcodeRow]⟩

theorem ldVxDT (x : RegIdx) : Statement (.ldVxDT x) :=
  ⟨by simp only [OpcodeRow.matchesWord, opcodeRow, encode]; rw [formatFXK_maskF0FF]; decide, by simp [opcodeTable, opcodeRow]⟩

theorem ldVxK (x : RegIdx) : Statement (.ldVxK x) :=
  ⟨by simp only [OpcodeRow.matchesWord, opcodeRow, encode]; rw [formatFXK_maskF0FF]; decide, by simp [opcodeTable, opcodeRow]⟩

theorem ldDTVx (x : RegIdx) : Statement (.ldDTVx x) :=
  ⟨by simp only [OpcodeRow.matchesWord, opcodeRow, encode]; rw [formatFXK_maskF0FF]; decide, by simp [opcodeTable, opcodeRow]⟩

theorem ldSTVx (x : RegIdx) : Statement (.ldSTVx x) :=
  ⟨by simp only [OpcodeRow.matchesWord, opcodeRow, encode]; rw [formatFXK_maskF0FF]; decide, by simp [opcodeTable, opcodeRow]⟩

theorem addIVx (x : RegIdx) : Statement (.addIVx x) :=
  ⟨by simp only [OpcodeRow.matchesWord, opcodeRow, encode]; rw [formatFXK_maskF0FF]; decide, by simp [opcodeTable, opcodeRow]⟩

theorem ldFVx (x : RegIdx) : Statement (.ldFVx x) :=
  ⟨by simp only [OpcodeRow.matchesWord, opcodeRow, encode]; rw [formatFXK_maskF0FF]; decide, by simp [opcodeTable, opcodeRow]⟩

theorem ldBVx (x : RegIdx) : Statement (.ldBVx x) :=
  ⟨by simp only [OpcodeRow.matchesWord, opcodeRow, encode]; rw [formatFXK_maskF0FF]; decide, by simp [opcodeTable, opcodeRow]⟩

theorem ldMemVx (x : RegIdx) : Statement (.ldMemVx x) :=
  ⟨by simp only [OpcodeRow.matchesWord, opcodeRow, encode]; rw [formatFXK_maskF0FF]; decide, by simp [opcodeTable, opcodeRow]⟩

theorem ldVxMem (x : RegIdx) : Statement (.ldVxMem x) :=
  ⟨by simp only [OpcodeRow.matchesWord, opcodeRow, encode]; rw [formatFXK_maskF0FF]; decide, by simp [opcodeTable, opcodeRow]⟩

end Sys2Proof.Laws.EncodingMatchesRow
end

