-- ==== Sys2Proof/Machine/Assembly.lean ====
section
/-! DEFINITION. The assembler syntax of 30_encoding.md R101 as text written from an instruction. It has no part in execution
(92_eei_decisions.md D23; log 26). -/

namespace Sys2Proof.Machine

/-- One hexadecimal digit, upper case. -/
def hexDigit (d : Nat) : String := String.singleton ("0123456789ABCDEF".toList.getD (d % 16) '0')

/-- A number in hexadecimal with the prefix 0x and `digits` digits. -/
def hexText (digits value : Nat) : String :=
  "0x" ++ ((List.range digits).map fun k => hexDigit (value / 16 ^ (digits - 1 - k))).foldl (· ++ ·) ""

/-- `V0` to `VF`. -/
def regText (x : RegIdx) : String := "V" ++ hexDigit x.val

/-- Two register operands. -/
def regPairText (x y : RegIdx) : String := regText x ++ ", " ++ regText y

/-- A register operand and an 8-bit immediate. -/
def regByteText (x : RegIdx) (kk : Byte) : String := regText x ++ ", " ++ hexText 2 kk.toNat

/-- The line an assembler reads for an instruction (R101). -/
def asmText : Instr → String
  | .cls => "CLS"
  | .ret => "RET"
  | .jpNnn nnn => "JP " ++ hexText 3 nnn.toNat
  | .callNnn nnn => "CALL " ++ hexText 3 nnn.toNat
  | .seVxKk x kk => "SE " ++ regByteText x kk
  | .sneVxKk x kk => "SNE " ++ regByteText x kk
  | .seVxVy x y => "SE " ++ regPairText x y
  | .ldVxKk x kk => "LD " ++ regByteText x kk
  | .addVxKk x kk => "ADD " ++ regByteText x kk
  | .ldVxVy x y => "LD " ++ regPairText x y
  | .orVxVy x y => "OR " ++ regPairText x y
  | .andVxVy x y => "AND " ++ regPairText x y
  | .xorVxVy x y => "XOR " ++ regPairText x y
  | .addVxVy x y => "ADD " ++ regPairText x y
  | .subVxVy x y => "SUB " ++ regPairText x y
  | .shrVxVy x y => "SHR " ++ regPairText x y
  | .subnVxVy x y => "SUBN " ++ regPairText x y
  | .shlVxVy x y => "SHL " ++ regPairText x y
  | .sneVxVy x y => "SNE " ++ regPairText x y
  | .ldINnn nnn => "LD I, " ++ hexText 3 nnn.toNat
  | .jpV0Nnn nnn => "JP V0, " ++ hexText 3 nnn.toNat
  | .rndVxKk x kk => "RND " ++ regByteText x kk
  | .drwVxVyN x y n => "DRW " ++ regPairText x y ++ ", " ++ hexText 1 n
  | .skpVx x => "SKP " ++ regText x
  | .sknpVx x => "SKNP " ++ regText x
  | .ldVxDT x => "LD " ++ regText x ++ ", DT"
  | .ldVxK x => "LD " ++ regText x ++ ", K"
  | .ldDTVx x => "LD DT, " ++ regText x
  | .ldSTVx x => "LD ST, " ++ regText x
  | .addIVx x => "ADD I, " ++ regText x
  | .ldFVx x => "LD F, " ++ regText x
  | .ldBVx x => "LD B, " ++ regText x
  | .ldMemVx x => "LD [I], " ++ regText x
  | .ldVxMem x => "LD " ++ regText x ++ ", [I]"

end Sys2Proof.Machine
end

