-- ==== Sys2Proof/Tests/Slice0.lean ====
section
/-! SUPPORT. Tests. Expected values are those of 95_test_vectors.md (each test names its vector) or are written out from the
encoding tables of 30_encoding.md; the witnesses show that the hypotheses of the statements can be met together, at the edges of
their ranges. -/

namespace Sys2Proof.Tests

open Sys2Proof.Machine

/-! ### Well-formedness: each check refuses an ill-formed term and takes the largest well-formed one -/

theorem test_wellFormed_refuses_a_13_bit_jump : (Instr.jpNnn 0x1000).wellFormed = false ∧ (Instr.jpNnn 0x0FFF).wellFormed = true := by
  decide

theorem test_wellFormed_refuses_a_13_bit_call : (Instr.callNnn 0x1000).wellFormed = false ∧ (Instr.callNnn 0x0FFF).wellFormed = true := by
  decide

theorem test_wellFormed_refuses_a_13_bit_index : (Instr.ldINnn 0xFFFF).wellFormed = false ∧ (Instr.ldINnn 0x0FFF).wellFormed = true := by
  decide

theorem test_wellFormed_refuses_a_13_bit_indexed_jump :
    (Instr.jpV0Nnn 0x1000).wellFormed = false ∧ (Instr.jpV0Nnn 0x0FFF).wellFormed = true := by
  decide

theorem test_wellFormed_refuses_16_rows :
    (Instr.drwVxVyN 0 0 16).wellFormed = false ∧ (Instr.drwVxVyN 0 0 15).wellFormed = true := by
  decide

/-! ### Decoding: every constructor from a word written out bit by bit from 30_encoding.md R92 and R96 -/

/-- Group 0x0 (format F0) and the FA formats. -/
theorem test_decode_fixed_and_address_words :
    decodeTableWord 16 0b0000000011100000 = some .cls ∧
    decodeTableWord 16 0b0000000011101110 = some .ret ∧
    decodeTableWord 16 0b0001001000110100 = some (.jpNnn 0x234) ∧
    decodeTableWord 16 0b0010001100000000 = some (.callNnn 0x300) ∧
    decodeTableWord 16 0b1010001011110000 = some (.ldINnn 0x2F0) ∧
    decodeTableWord 16 0b1011111111111111 = some (.jpV0Nnn 0xFFF) := by
  decide

/-- Formats FXK, FXY0 and FXYN. -/
theorem test_decode_register_words :
    decodeTableWord 16 0b0011001101000010 = some (.seVxKk 3 0x42) ∧
    decodeTableWord 16 0b0100110101000010 = some (.sneVxKk 13 0x42) ∧
    decodeTableWord 16 0b0101000100100000 = some (.seVxVy 1 2) ∧
    decodeTableWord 16 0b0110101000101011 = some (.ldVxKk 10 0x2B) ∧
    decodeTableWord 16 0b0111010100100000 = some (.addVxKk 5 0x20) ∧
    decodeTableWord 16 0b1001000111110000 = some (.sneVxVy 1 15) ∧
    decodeTableWord 16 0b1100001100001111 = some (.rndVxKk 3 0x0F) ∧
    decodeTableWord 16 0b1101000100101111 = some (.drwVxVyN 1 2 15) := by
  decide

/-- Format FXYF, the nine instructions of group 0x8. -/
theorem test_decode_group8_words :
    decodeTableWord 16 0b1000000100100000 = some (.ldVxVy 1 2) ∧
    decodeTableWord 16 0b1000000100100001 = some (.orVxVy 1 2) ∧
    decodeTableWord 16 0b1000000100100010 = some (.andVxVy 1 2) ∧
    decodeTableWord 16 0b1000000100100011 = some (.xorVxVy 1 2) ∧
    decodeTableWord 16 0b1000111100010100 = some (.addVxVy 15 1) ∧
    decodeTableWord 16 0b1000000100100101 = some (.subVxVy 1 2) ∧
    decodeTableWord 16 0b1000000100100110 = some (.shrVxVy 1 2) ∧
    decodeTableWord 16 0b1000000100100111 = some (.subnVxVy 1 2) ∧
    decodeTableWord 16 0b1000010000001110 = some (.shlVxVy 4 0) := by
  decide

/-- Format FXF, groups 0xE and 0xF. -/
theorem test_decode_function_byte_words :
    decodeTableWord 16 0b1110000110011110 = some (.skpVx 1) ∧
    decodeTableWord 16 0b1110000110100001 = some (.sknpVx 1) ∧
    decodeTableWord 16 0b1111010100000111 = some (.ldVxDT 5) ∧
    decodeTableWord 16 0b1111001000001010 = some (.ldVxK 2) ∧
    decodeTableWord 16 0b1111001000010101 = some (.ldDTVx 2) ∧
    decodeTableWord 16 0b1111001000011000 = some (.ldSTVx 2) ∧
    decodeTableWord 16 0b1111001000011110 = some (.addIVx 2) ∧
    decodeTableWord 16 0b1111000000101001 = some (.ldFVx 0) ∧
    decodeTableWord 16 0b1111000100110011 = some (.ldBVx 1) ∧
    decodeTableWord 16 0b1111111101010101 = some (.ldMemVx 15) ∧
    decodeTableWord 16 0b1111001001100101 = some (.ldVxMem 2) := by
  decide

/-- V-DEC-01 to V-DEC-11: the words the strict decoder rejects, by name. -/
theorem test_decode_rejects_by_name :
    decodeWord 0x0000#16 = .error (.unimplementedOpcode 0x0000#16) ∧
    decodeWord 0x0123#16 = .error (.unimplementedOpcode 0x0123#16) ∧
    decodeWord 0x01E0#16 = .error (.unimplementedOpcode 0x01E0#16) ∧
    decodeWord 0x00E1#16 = .error (.unimplementedOpcode 0x00E1#16) ∧
    decodeWord 0x5121#16 = .error (.unimplementedOpcode 0x5121#16) ∧
    decodeWord 0x9121#16 = .error (.unimplementedOpcode 0x9121#16) ∧
    decodeWord 0x8128#16 = .error (.unimplementedOpcode 0x8128#16) ∧
    decodeWord 0x812F#16 = .error (.unimplementedOpcode 0x812F#16) ∧
    decodeWord 0xE19F#16 = .error (.unimplementedOpcode 0xE19F#16) ∧
    decodeWord 0xF01A#16 = .error (.unimplementedOpcode 0xF01A#16) ∧
    decodeWord 0xFFFF#16 = .error (.unimplementedOpcode 0xFFFF#16) := by
  decide

/-- 20_memory.md R63: big-endian bytes, the rest of them given back; a lone byte is no instruction. -/
theorem test_decode_bytes : decodeBytes [0xA2, 0xF0, 0x77] = .ok (.ldINnn 0x2F0, [0x77]) ∧ decodeBytes [0xA2] = .error .truncated ∧
    encodeBytes (.ldINnn 0x2F0) = [0xA2, 0xF0] := by
  decide

/-- R101: the mnemonics as an assembler reads them. -/
theorem test_assembly_text : asmText (.drwVxVyN 1 15 5) = "DRW V1, VF, 0x5" ∧ asmText (.jpNnn 0x20A) = "JP 0x20A" ∧
    asmText (.ldMemVx 1) = "LD [I], V1" := by
  decide

/-! ### Helpers -/

/-- What `f` reads off the next state; none where there is none. -/
def after {α : Type} (o : Host.Outcome State Fault Refusal) (f : State → α) : Option α :=
  match o with
  | .next t => some (f t)
  | .fault _ => none
  | .refused _ => none

/-- What `f` reads off the state and the responses of a run of commands. -/
def afterCommands {α : Type} (o : Host.Outcome (State × List Response) Fault Refusal) (f : State → List Response → α) : Option α :=
  match o with
  | .next (t, responses) => some (f t responses)
  | .fault _ => none
  | .refused _ => none

/-- The state after reset with the word at 0x200. -/
def fetching (w : Nat) : State := State.reset.withFetchWord 16 w

/-- Some registers set. -/
def regs (rs : List (RegIdx × Byte)) (s : State) : State := rs.foldl (fun s r => s.setReg r.1 r.2) s

/-- Some bytes of memory set. -/
def bytes (cells : List (Nat × Byte)) (s : State) : State := cells.foldl (fun s c => s.setByte c.1 c.2) s

/-- Some keys pressed. -/
def keys (ks : List (Fin 16)) (s : State) : State := { s with key := Vector.ofFn fun k => ks.contains k }

/-- The fault record latched. -/
def latched (s : State) : Option FaultRecord := s.fault

/-! ### Execution -/

/-- V-DSP-01: no pixel set, VF kept. -/
theorem test_cls : after (step (regs [(15, 3)] ({ fetching 0x00E0 with
      disp := Display.toggle (Display.toggle Display.clear 0 0) 63 31 })))
    (fun t => (Display.pixel t.disp 0 0, Display.pixel t.disp 63 31, t.v[15], t.pc)) = some (false, false, 3, 0x202) := by
  decide

/-- V-CF-01. -/
theorem test_ret : after (step { fetching 0x00EE with sp := 1, stack := Vector.replicate 16 0x302 })
    (fun t => (t.pc, t.sp, t.stack[0])) = some (0x302, 0, 0x302) := by
  decide

/-- V-CF-02. -/
theorem test_ret_underflow : after (step (fetching 0x00EE)) (fun t => (latched t, t.pc)) =
    some (some { kind := .stackUnderflow, faultPc := 0x200 }, 0x200) := by
  decide

/-- V-CF-05, with the fault of the tick after it. -/
theorem test_jp : after (Sys2Proof.core.run 2 (fetching 0x1FFF)) (fun t => (t.pc, latched t)) =
    some (0xFFF, some { kind := .addressOutOfRange 4096, faultPc := 0xFFF }) := by
  decide

/-- V-CF-06. -/
theorem test_call : after (step (fetching 0x2300)) (fun t => (t.stack[0], t.sp, t.pc)) = some (0x202, 1, 0x300) := by
  decide

/-- V-CF-07. -/
theorem test_call_overflow : after (step { fetching 0x2300 with sp := 16 }) (fun t => (latched t, t.sp, t.pc)) =
    some (some { kind := .stackOverflow, faultPc := 0x200 }, 16, 0x200) := by
  decide

/-- V-CF-08, V-CF-09. -/
theorem test_se_immediate : after (step (regs [(3, 0x42)] (fetching 0x3342))) State.pc = some 0x204 ∧
    after (step (regs [(3, 0x41)] (fetching 0x3342))) State.pc = some 0x202 := by
  decide

/-- V-CF-10, V-CF-11. -/
theorem test_sne_immediate : after (step (regs [(3, 0x42)] (fetching 0x4342))) State.pc = some 0x202 ∧
    after (step (regs [(3, 0x41)] (fetching 0x4342))) State.pc = some 0x204 := by
  decide

/-- V-CF-13, V-CF-14. -/
theorem test_se_registers : after (step (regs [(1, 7), (2, 7)] (fetching 0x5120))) State.pc = some 0x204 ∧
    after (step (regs [(1, 7), (2, 8)] (fetching 0x5120))) State.pc = some 0x202 := by
  decide

/-- V-CF-15, V-CF-16. -/
theorem test_sne_registers : after (step (regs [(1, 7), (2, 8)] (fetching 0x9120))) State.pc = some 0x204 ∧
    after (step (regs [(1, 7)] (fetching 0x9110))) State.pc = some 0x202 := by
  decide

/-- V-CF-18, with the fault of the tick after it. -/
theorem test_jp_v0 : after (Sys2Proof.core.run 2 (regs [(0, 0xFF), (3, 0x50)] (fetching 0xBFFF))) (fun t => (t.pc, latched t)) =
    some (0x10FE, some { kind := .addressOutOfRange 0x10FE, faultPc := 0x10FE }) := by
  decide

/-- V-ALU-01. -/
theorem test_ld_immediate : after (step (fetching 0x6A2B)) (fun t => t.v[10]) = some 0x2B := by
  decide

/-- V-ALU-03, V-ALU-04. -/
theorem test_add_immediate : after (step (regs [(1, 0x02), (15, 0x07)] (fetching 0x71FF))) (fun t => (t.v[1], t.v[15])) = some (1, 7) ∧
    after (step (regs [(15, 0xFF)] (fetching 0x7F01))) (fun t => t.v[15]) = some 0 := by
  decide

/-- V-ALU-05. -/
theorem test_copy : after (step (regs [(2, 0x99)] (fetching 0x8120))) (fun t => t.v[1]) = some 0x99 := by
  decide

/-- V-ALU-06. -/
theorem test_or : after (step (regs [(1, 0x0F), (2, 0xF0), (15, 0x55)] (fetching 0x8121))) (fun t => (t.v[1], t.v[15])) =
    some (0xFF, 0x55) := by
  decide

/-- V-ALU-07. -/
theorem test_and : after (step (regs [(1, 0x3C), (2, 0x0F), (15, 0x55)] (fetching 0x8122))) (fun t => (t.v[1], t.v[15])) =
    some (0x0C, 0x55) := by
  decide

/-- V-ALU-08. -/
theorem test_xor : after (step (regs [(1, 0xFF), (2, 0x0F)] (fetching 0x8123))) (fun t => t.v[1]) = some 0xF0 := by
  decide

/-- V-ALU-10, V-ALU-15. -/
theorem test_add_registers : after (step (regs [(1, 0x80), (2, 0x80)] (fetching 0x8124))) (fun t => (t.v[1], t.v[15])) = some (0, 1) ∧
    after (step (regs [(1, 0x10), (15, 0x05)] (fetching 0x81F4))) (fun t => (t.v[1], t.v[15])) = some (0x15, 0) := by
  decide

/-- V-ALU-13, V-ALU-14: VF as destination holds the flag. -/
theorem test_add_into_flag : after (step (regs [(15, 0xFF), (1, 0x01)] (fetching 0x8F14))) (fun t => t.v[15]) = some 1 ∧
    after (step (regs [(15, 0x10), (1, 0x01)] (fetching 0x8F14))) (fun t => t.v[15]) = some 0 := by
  decide

/-- V-ALU-16, V-ALU-17. -/
theorem test_sub : after (step (regs [(1, 5), (2, 5)] (fetching 0x8125))) (fun t => (t.v[1], t.v[15])) = some (0, 1) ∧
    after (step (regs [(1, 0), (2, 0xFF)] (fetching 0x8125))) (fun t => (t.v[1], t.v[15])) = some (1, 0) := by
  decide

/-- V-ALU-22, V-ALU-23. -/
theorem test_shr : after (step (regs [(1, 2), (2, 0xFF)] (fetching 0x8126))) (fun t => (t.v[1], t.v[15], t.v[2])) = some (1, 0, 0xFF) ∧
    after (step (regs [(15, 2)] (fetching 0x8F06))) (fun t => t.v[15]) = some 0 := by
  decide

/-- V-ALU-19, V-ALU-20. -/
theorem test_subn : after (step (regs [(1, 2), (2, 1)] (fetching 0x8127))) (fun t => (t.v[1], t.v[15])) = some (0xFF, 0) ∧
    after (step (regs [(1, 1), (2, 5)] (fetching 0x8127))) (fun t => (t.v[1], t.v[15])) = some (4, 1) := by
  decide

/-- V-ALU-24, V-ALU-25. -/
theorem test_shl : after (step (regs [(4, 0xC1)] (fetching 0x840E))) (fun t => (t.v[4], t.v[15])) = some (0x82, 1) ∧
    after (step (regs [(4, 0x7F), (15, 1)] (fetching 0x840E))) (fun t => (t.v[4], t.v[15])) = some (0xFE, 0) := by
  decide

/-- V-ALU-27, V-ALU-28: RND in a tick whose entropy byte is given. -/
theorem test_rnd : after (tickWith 0xA7 (fetching 0xC30F)) (fun t => t.v[3]) = some 0x07 ∧
    after (tickWith 0xA7 (fetching 0xC300)) (fun t => t.v[3]) = some 0 := by
  decide

/-- V-IM-01. -/
theorem test_ld_index : after (step { fetching 0xA2F0 with i := 0xFFFF }) State.i = some 0x02F0 := by
  decide

/-- V-IM-03, V-IM-04. -/
theorem test_add_index : after (step (regs [(2, 1), (15, 7)] { fetching 0xF21E with i := 0xFFFF })) (fun t => (t.i, t.v[15])) = some (0, 7) ∧
    after (step (regs [(2, 1)] { fetching 0xF21E with i := 0x0FFF })) State.i = some 0x1000 := by
  decide

/-- V-IM-06, V-IM-07. -/
theorem test_ld_font : after (step (regs [(0, 0x1A)] (fetching 0xF029))) State.i = some 0x32 ∧
    after (step (regs [(0, 0x0F)] (fetching 0xF029))) State.i = some 0x4B := by
  decide

/-- V-IM-11. -/
theorem test_bcd : after (step (regs [(1, 1)] { fetching 0xF133 with i := 0xFFD }))
    (fun t => (t.byteAt 0xFFD, t.byteAt 0xFFE, t.byteAt 0xFFF)) = some (0, 0, 1) := by
  decide

/-- V-IM-12: the whole store is void. -/
theorem test_bcd_fault : after (step (regs [(1, 1)] { fetching 0xF133 with i := 0xFFE })) (fun t => (latched t, t.mem == (fetching 0xF133).mem)) =
    some (some { kind := .addressOutOfRange 4096, faultPc := 0x200 }, true) := by
  decide

/-- V-IM-14. -/
theorem test_dump : after (step (regs [(0, 1), (1, 2), (2, 3), (3, 9)] { fetching 0xF255 with i := 0x400 }))
    (fun t => (t.byteAt 0x400, t.byteAt 0x401, t.byteAt 0x402, t.byteAt 0x403, t.i)) = some (1, 2, 3, 0, 0x400) := by
  decide

/-- V-IM-16. -/
theorem test_dump_fault : after (step { fetching 0xFF55 with i := 0xFF1 }) latched =
    some (some { kind := .addressOutOfRange 4096, faultPc := 0x200 }) := by
  decide

/-- V-IM-17. -/
theorem test_load_registers : after (step (bytes [(0x400, 1), (0x401, 2), (0x402, 3), (0x403, 4)] { fetching 0xF265 with i := 0x400 }))
    (fun t => (t.v[0], t.v[1], t.v[2], t.v[3])) = some (1, 2, 3, 0) := by
  decide

/-- V-IM-18: the first bytes of the font. -/
theorem test_load_font_bytes : after (step (fetching 0xFF65)) (fun t => (t.v[0], t.v[1], t.v[5], t.v[15])) =
    some (0xF0, 0x90, 0x20, 0xF0) := by
  decide

/-- V-DSP-02, V-DSP-15: glyph 0 at the origin; V-DSP-03: the same on a set pixel, a collision. -/
theorem test_draw_glyph : after (step (fetching 0xD015)) (fun t => (t.disp.rowMajor.countP id, Display.pixel t.disp 3 0, Display.pixel t.disp 4 0,
    Display.pixel t.disp 0 1, Display.pixel t.disp 1 1, t.v[15])) = some (14, true, false, true, false, 0) ∧
    after (step { fetching 0xD015 with disp := Display.toggle Display.clear 0 0 })
      (fun t => (Display.pixel t.disp 0 0, Display.pixel t.disp 1 0, t.v[15])) = some (false, true, 1) := by
  decide +kernel

/-- V-DSP-08 (wrap at the right edge), V-DSP-13 (VF as a coordinate). -/
theorem test_draw_wraps : after (step (regs [(1, 60), (2, 31)] (bytes [(0x300, 0xFF)] { fetching 0xD121 with i := 0x300 })))
      (fun t => (Display.pixel t.disp 63 31, Display.pixel t.disp 3 31, Display.pixel t.disp 4 31, t.v[15])) = some (true, true, false, 0) ∧
    after (step (regs [(15, 10)] (bytes [(0x300, 0x80)] { fetching 0xDF01 with i := 0x300 })))
      (fun t => (Display.pixel t.disp 10 0, t.v[15])) = some (true, 0) := by
  decide

/-- V-KT-01, V-KT-05. -/
theorem test_skp : after (step (keys [7] (regs [(1, 7)] (fetching 0xE19E)))) State.pc = some 0x204 ∧
    after (step (regs [(1, 16)] (fetching 0xE19E))) latched = some (some { kind := .invalidKeyIndex 16, faultPc := 0x200 }) := by
  decide

/-- V-KT-03, V-KT-04. -/
theorem test_sknp : after (step (regs [(1, 7)] (fetching 0xE1A1))) State.pc = some 0x204 ∧
    after (step (keys [7] (regs [(1, 7)] (fetching 0xE1A1)))) State.pc = some 0x202 := by
  decide

/-- V-KT-07. -/
theorem test_key_wait : after (step (regs [(2, 9)] (fetching 0xF20A))) (fun t => (t.pc, t.v[2], t.waitKey)) = some (0x200, 9, true) := by
  decide

/-- V-KT-08. -/
theorem test_key_found : after (step (keys [7, 3] { fetching 0xF20A with waitKey := true })) (fun t => (t.v[2], t.pc, t.waitKey)) =
    some (3, 0x202, false) := by
  decide

/-- V-KT-10. -/
theorem test_ld_from_delay : after (step { fetching 0xF507 with dt := 0x3C }) (fun t => (t.v[5], t.dt)) = some (0x3C, 0x3C) := by
  decide

/-- V-KT-11, V-KT-12. -/
theorem test_set_timers : after (step (regs [(2, 0x3C)] (fetching 0xF215))) State.dt = some 0x3C ∧
    after (step (regs [(2, 5)] (fetching 0xF218))) State.st = some 5 := by
  decide

/-! ### Host commands -/

/-- V-TT-02. -/
theorem test_tick_timer : afterCommands (runCommands [.tickTimer, .tickTimer, .tickTimer] { State.reset with dt := 1, st := 2 })
    (fun t rs => (t.dt, t.st, rs)) =
    some (0, 0, [.soundExpired false, .soundExpired true, .soundExpired false]) := by
  decide

/-- V-HOST-03, V-HOST-04. -/
theorem test_keypress : afterCommands (runCommands [.keypress 15 true, .keypress 16 true] State.reset)
    (fun t rs => (t.key[15], t.key[14], rs)) = some (true, false, [.ok, .rejected (.invalidKeyIndex 16)]) := by
  decide

/-- V-HOST-06: `load` during a wait. -/
theorem test_load_while_waiting : afterCommands (runCommands [.load [0xF0, 0x0A], .tick 0, .load [0x60, 0x05], .tick 0] State.reset)
    (fun t _ => (t.v[0], t.pc, t.waitKey)) = some (5, 0x202, false) := by
  decide

/-- V-FLT-01, V-FLT-02: commands while the latch is set. -/
theorem test_commands_while_faulted : afterCommands (runCommands [.load [0x00, 0xEE], .tick 0, .keypress 1 true, .load [0x12, 0x00], .tick 0]
      State.reset) (fun t rs => (t.key[1], t.byteAt 0x200, rs.getLast?)) =
    some (true, 0x12, some (.faulted { kind := .stackUnderflow, faultPc := 0x200 })) := by
  decide

/-- V-FLT-03, V-HOST-05: `reset` leaves the latch, and the first tick faults on the zero word. -/
theorem test_reset_clears_the_latch : afterCommands (runCommands [.reset, .tick 0] (State.reset.takeFault .stackUnderflow))
    (fun t rs => (latched t, rs.length)) = some (some { kind := .unimplementedOpcode 0, faultPc := 0x200 }, 2) := by
  decide

/-! ### Witnesses: the hypotheses of each statement met together -/

theorem witness_DecodeOfEncodeIsTheInstruction :
    (Instr.callNnn 0xFFF).wellFormed = true ∧ (Instr.jpV0Nnn 0).wellFormed = true ∧ (Instr.drwVxVyN 15 15 15).wellFormed = true := by
  decide

theorem witness_EncodeOfDecodeIsTheWord : decodeWord 0x8FFE = .ok (.shlVxVy 15 15) ∧ decodeWord 0xDFFF = .ok (.drwVxVyN 15 15 15) := by
  decide

/-- One illegal word of each clause of R98, at an edge, and a legal neighbour of each. -/
theorem witness_DecodeRejectsExactlyTheIllegalWords :
    (∀ op ∈ ([0x0000#16, 0x0FFF#16, 0x00E1#16, 0x5001#16, 0x800D#16, 0x8FFF#16, 0x9FFF#16, 0xE09D#16, 0xF000#16, 0xFF66#16] : List Word),
      illegalWord op) ∧
    (∀ op ∈ ([0x00E0#16, 0x1000#16, 0x5FF0#16, 0x8007#16, 0x800E#16, 0x9FF0#16, 0xDFFF#16, 0xEFA1#16, 0xFF65#16] : List Word),
      ¬ illegalWord op) := by
  simp [illegalWord]

theorem witness_DecodingAgreesWithTheOpcodeMap :
    opcodeRow (.sknpVx 0) ∈ opcodeTable ∧ (opcodeRow (.sknpVx 0)).matchesWord 0xEFA1 = true ∧ decodeWord 0xEFA1 = .ok (.sknpVx 15) := by
  decide

/-- At the last address an instruction can be fetched from. -/
theorem witness_StepRunsTheDecodedInstruction :
    let s := bytes [(4094, 0x60), (4095, 0x05)] { State.reset with pc := 4094 }
    s.fault = none ∧ s.pc.toNat ≤ 4094 ∧
      decodeWord (wordOfBytes (s.byteAt s.pc.toNat) (s.byteAt (s.pc.toNat + 1))) = .ok (.ldVxKk 0 5) := by
  decide

theorem witness_FetchOutsideMemoryFaults :
    (State.reset.fault = none ∧ ({ State.reset with pc := 4095 } : State).pc.toNat = 4095) ∧
    4095 < ({ State.reset with pc := 4096 } : State).pc.toNat := by
  decide

theorem witness_IllegalWordFaults :
    State.reset.fault = none ∧ State.reset.pc.toNat ≤ 4094 ∧
      illegalWord (wordOfBytes (State.reset.byteAt State.reset.pc.toNat) (State.reset.byteAt (State.reset.pc.toNat + 1))) := by
  exact ⟨rfl, by decide, .inl (by decide)⟩

theorem witness_LatchedTickChangesNothing :
    (State.reset.takeFault .stackOverflow).fault = some { kind := .stackOverflow, faultPc := 0x200 } := by
  decide

theorem witness_FaultingTickIsVoid : ∃ t, (fetching 0x00EE).fault = none ∧ step (fetching 0x00EE) = .next t ∧
    t.fault = some { kind := .stackUnderflow, faultPc := 0x200 } := ⟨_, by decide, rfl, by decide⟩

/-- Each kind an instruction raises, at the edge of its range. -/
theorem witness_EachInstructionRaisesOnlyItsOwnFault : State.reset.fault = none ∧
    after (exec .ret State.reset) latched = some (some { kind := .stackUnderflow, faultPc := 0x200 }) ∧
    after (exec (.callNnn 0) { State.reset with sp := 16 }) latched = some (some { kind := .stackOverflow, faultPc := 0x200 }) ∧
    after (exec (.sknpVx 0) (regs [(0, 16)] State.reset)) latched = some (some { kind := .invalidKeyIndex 16, faultPc := 0x200 }) ∧
    after (exec (.drwVxVyN 0 0 1) { State.reset with i := 4096 }) latched =
      some (some { kind := .addressOutOfRange 4096, faultPc := 0x200 }) := by
  decide

/-- A store and a fault both answer a next state. -/
theorem witness_FrameOfEveryInstruction :
    (∃ t, exec (.ldMemVx 15) { State.reset with i := 4080 } = .next t) ∧ (∃ t, exec .ret State.reset = .next t) :=
  ⟨⟨_, rfl⟩, ⟨_, rfl⟩⟩

/-- A wait, and an instruction that is no wait. -/
theorem witness_WaitKeyReportsAFruitlessWait :
    (∃ t, (fetching 0xF00A).fault = none ∧ step (fetching 0xF00A) = .next t ∧ t.fault = none ∧ t.waitKey = true) ∧
    (∃ t, (fetching 0x1200).fault = none ∧ step (fetching 0x1200) = .next t ∧ t.fault = none ∧ t.waitKey = false) :=
  ⟨⟨_, by decide, rfl, by decide, by decide⟩, ⟨_, by decide, rfl, by decide, by decide⟩⟩

theorem witness_OnlyRndReadsTheEntropyByte :
    (∀ x kk, (fetching 0x1200).fetchInstr ≠ .ok (.rndVxKk x kk)) ∧
    (∃ t, (fetching 0xCF00).fault = none ∧ (fetching 0xCF00).fetchInstr = .ok (.rndVxKk 15 0) ∧
      tickWith (Config.entropy (fetching 0xCF00).draws) (fetching 0xCF00) = .next t) := by
  refine ⟨fun x kk h => ?_, ⟨_, by decide, by decide, rfl⟩⟩
  have e : (fetching 0x1200).fetchInstr = .ok (.jpNnn 0x200) := by decide
  rw [e] at h
  cases h

/-- The three depths at the edges. -/
theorem witness_ReturnPopsOrFaults :
    State.reset.sp.val = 0 ∧ ({ State.reset with sp := 1 } : State).sp.val ≠ 0 ∧ ({ State.reset with sp := 16 } : State).sp.val ≠ 0 := by
  decide

theorem witness_CallPushesOrFaults :
    ({ State.reset with sp := 16 } : State).sp.val = 16 ∧ ({ State.reset with sp := 15 } : State).sp.val < 16 ∧
      State.reset.sp.val < 16 := by
  decide

theorem witness_PushAndPopKeepTheStackDiscipline :
    ({ State.reset with sp := 16 } : State).sp.val = 16 ∧ ({ State.reset with sp := 15 } : State).sp.val < 16 ∧
    State.reset.sp.val = 0 ∧ ({ State.reset with sp := 1 } : State).sp.val ≠ 0 ∧
    (∃ t, State.reset.advance.push (State.reset.pc + 2) = .ok t) ∧
    (∃ target t, ({ State.reset with sp := 16 } : State).advance.pop = .ok (target, t)) :=
  ⟨by decide, by decide, by decide, by decide, ⟨_, rfl⟩, ⟨_, _, rfl⟩⟩

/-- Sixteen calls from an empty stack, and none from a full one. -/
theorem witness_NestedCallsUnwind :
    (State.reset.fault = none ∧ State.reset.sp.val + (List.replicate 16 (0x300#16 : Word)).length ≤ 16) ∧
    ({ State.reset with sp := 16 } : State).sp.val + ([] : List Word).length ≤ 16 := by
  decide

theorem witness_JumpsReplaceThePc : (0x0FFF#16 : Word).toNat < 4096 := by
  decide

theorem witness_ParkedCoreStaysParked : (fetching 0x1200).isParked := ⟨by decide, by decide⟩

theorem witness_FlagsAreCarryBorrowShiftAndCollision :
    let s := { State.reset with i := 4081 }
    (∃ t, exec (.addVxVy 15 15) s = .next t) ∧ (∃ t, exec (.subVxVy 0 1) s = .next t) ∧ (∃ t, exec (.subnVxVy 0 1) s = .next t) ∧
    (∃ t, exec (.shrVxVy 0 1) s = .next t) ∧ (∃ t, exec (.shlVxVy 0 1) s = .next t) ∧
    (∃ t, 15 < 16 ∧ s.fault = none ∧ exec (.drwVxVyN 0 1 15) s = .next t ∧ t.fault = none) :=
  ⟨⟨_, rfl⟩, ⟨_, rfl⟩, ⟨_, rfl⟩, ⟨_, rfl⟩, ⟨_, rfl⟩, ⟨_, by decide, by decide, rfl, by decide⟩⟩

theorem witness_BcdStoreWritesThreeDigits : Memory.wf (fetching 0xF133).font (fetching 0xF133).mem = true ∧
    ({ State.reset with i := 4093 } : State).i.toNat + 2 ≤ 4095 ∧ 4095 < ({ State.reset with i := 4094 } : State).i.toNat + 2 := by
  decide

theorem witness_RegisterDumpStoresV0ToVx : Memory.wf (fetching 0xFF55).font (fetching 0xFF55).mem = true ∧
    ({ State.reset with i := 4080 } : State).i.toNat + (15 : RegIdx).val ≤ 4095 ∧
    4095 < ({ State.reset with i := 4081 } : State).i.toNat + (15 : RegIdx).val := by
  decide

theorem witness_RegisterLoadReadsV0ToVx :
    ({ State.reset with i := 4095 } : State).i.toNat + (0 : RegIdx).val ≤ 4095 ∧
    4095 < ({ State.reset with i := 4096 } : State).i.toNat + (0 : RegIdx).val := by
  decide

theorem witness_DumpThenLoadRestoresTheRegisters :
    let s := { State.reset with i := 4080 }
    ∃ t, Memory.wf s.font s.mem = true ∧ s.i.toNat + (15 : RegIdx).val ≤ 4095 ∧ exec (.ldMemVx 15) s = .next t :=
  ⟨_, by decide, by decide, rfl⟩

/-- The last pair of bytes an instruction can be fetched from. -/
theorem witness_StoredWordIsFetchedNext :
    let s := { State.reset with pc := 4092, i := 4094 }
    ∃ t, Memory.wf s.font s.mem = true ∧ 1 ≤ (1 : RegIdx).val ∧ s.i.toNat + (1 : RegIdx).val ≤ 4095 ∧ s.i = s.pc + 2 ∧
      exec (.ldMemVx 1) s = .next t :=
  ⟨_, by decide, by decide, by decide, by decide, rfl⟩

/-- Fifteen rows up to the last byte of memory, no row at all, and the two cases of VF: glyph 0 on the pixel (0, 0) set (V-DSP-03),
and no sprite bit on a set pixel. -/
theorem witness_DrawXorsTheSprite :
    (15 < 16 ∧ (15 = 0 ∨ ({ State.reset with i := 4081 } : State).i.toNat + 15 ≤ 4096)) ∧
    (0 < 16 ∧ (0 = 0 ∨ ({ State.reset with i := 0xFFFF } : State).i.toNat + 0 ≤ 4096)) ∧
    (5 < 16 ∧ (5 = 0 ∨ State.reset.i.toNat + 5 ≤ 4096) ∧ ∃ px py, spriteBit 0 0 (State.reset.spriteAt 5) px py = true ∧
      Display.pixel (Display.toggle Display.clear 0 0) px py = true) ∧
    (¬ ∃ px py, spriteBit 0 0 (State.reset.spriteAt 5) px py = true ∧ Display.pixel Display.clear px py = true) := by
  refine ⟨by decide, by decide, ⟨by decide, by decide, 0, 0, by decide, by decide⟩, ?_⟩
  rintro ⟨px, py, _, h⟩
  rw [Display.pixel_clear] at h
  cases h

theorem witness_DrawOutsideMemoryFaults :
    (1 ≠ 0 ∧ 4096 < ({ State.reset with i := 4096 } : State).i.toNat + 1) ∧
    (2 ≠ 0 ∧ 4096 < ({ State.reset with i := 4095 } : State).i.toNat + 2) := by
  decide

/-- V-DSP-05: two draws of glyph 0 in a row. -/
theorem witness_DrawingTwiceRestoresTheDisplay :
    ∃ t u, 5 < 16 ∧ exec (.drwVxVyN 0 1 5) State.reset = .next t ∧ t.disp = t.disp ∧ t.i = State.reset.i ∧
      t.v[(0 : RegIdx)] = State.reset.v[(0 : RegIdx)] ∧ t.v[(1 : RegIdx)] = State.reset.v[(1 : RegIdx)] ∧
      t.spriteAt 5 = State.reset.spriteAt 5 ∧ exec (.drwVxVyN 0 1 5) t = .next u :=
  ⟨_, _, by decide, rfl, rfl, rfl, rfl, rfl, rfl, rfl⟩

/-- The two cases of the second flag: a sprite pixel that was clear (glyph 0 on the clear display), and none (V-DSP-04). -/
theorem witness_SecondDrawCollidesWhereTheFirstDrewOnClear :
    (∃ t u, 5 < 16 ∧ (5 = 0 ∨ State.reset.i.toNat + 5 ≤ 4096) ∧ exec (.drwVxVyN 0 1 5) State.reset = .next t ∧
      exec (.drwVxVyN 0 1 5) t = .next u) ∧
    (spriteBit 0 0 (State.reset.spriteAt 5) 0 0 = true ∧ Display.pixel State.reset.disp 0 0 = false) ∧
    (¬ ∃ px py, spriteBit 0 0 (State.reset.spriteAt 0) px py = true ∧ Display.pixel State.reset.disp px py = false) := by
  refine ⟨⟨_, _, by decide, by decide, rfl, rfl⟩, by decide, ?_⟩
  rintro ⟨px, py, h, _⟩
  simp [spriteBit, State.spriteAt] at h

theorem witness_OnlyClsAndDrwTouchTheDisplay : ∀ x y n, Instr.cls ≠ .drwVxVyN x y n := by
  intro x y n h
  cases h

theorem witness_KeySkipsTestTheNamedKey :
    ((regs [(1, 15)] State.reset).v[(1 : RegIdx)]).toNat < 16 ∧ 15 < ((regs [(1, 16)] State.reset).v[(1 : RegIdx)]).toNat := by
  decide

/-- The highest key alone, and no key. -/
theorem witness_KeyWaitTakesTheLowestKey :
    ((keys [15] State.reset).key[(15 : Fin 16)] = true ∧ ∀ j : Fin 16, j < 15 → (keys [15] State.reset).key[j] = false) ∧
    (∀ k : Fin 16, State.reset.key[k] = false) := by
  decide

theorem witness_KeyLatchHoldsLevels :
    (∃ t response, command (.keypress 15 true) State.reset = .next (t, response) ∧ t.key[(15 : Fin 16)] ≠ State.reset.key[(15 : Fin 16)]) ∧
    State.reset.key[(15 : Fin 16)] = false :=
  ⟨⟨_, _, rfl, by decide⟩, by decide⟩

/-- Each timer written: by `tick_timer`, and by its instruction. -/
theorem witness_TimersChangeOnlyByTheirWriters :
    (∃ t response, command .tickTimer { State.reset with dt := 1, st := 1 } = .next (t, response) ∧ t.dt ≠ 1 ∧ t.st ≠ 1) ∧
    (∃ t response, command (.tick 0) (regs [(2, 5)] (fetching 0xF215)) = .next (t, response) ∧
      t.dt ≠ (regs [(2, 5)] (fetching 0xF215)).dt) ∧
    (∃ t response, command (.tick 0) (regs [(2, 5)] (fetching 0xF218)) = .next (t, response) ∧
      t.st ≠ (regs [(2, 5)] (fetching 0xF218)).st) :=
  ⟨⟨_, _, rfl, by decide, by decide⟩, ⟨_, _, rfl, by decide⟩, ⟨_, _, rfl, by decide⟩⟩

/-- The indices 15 and 16 (V-HOST-03, V-HOST-04). -/
theorem witness_KeypressSetsOneEntry : (∃ index, index = 15 ∧ index < 16) ∧ (∃ index, index = 16 ∧ 15 < index) :=
  ⟨⟨15, rfl, by decide⟩, ⟨16, rfl, by decide⟩⟩

/-- The longest ROM, and one byte more (V-HOST-01, V-HOST-02). -/
theorem witness_LoadCopiesTheRom : Memory.wf (fetching 0x1200).font (fetching 0x1200).mem = true ∧
    (List.replicate 3584 (0#8 : Byte)).length ≤ 3584 ∧ 3584 < (List.replicate 3585 (0#8 : Byte)).length :=
  ⟨by decide, by rw [List.length_replicate], by rw [List.length_replicate]; omega⟩

theorem witness_LoadedRomIsFetchedFromTheEntry : (List.replicate 3582 (0#8 : Byte)).length ≤ 3582 := by
  rw [List.length_replicate]

/-- A state that meets the invariant, with a program, and its step. -/
theorem witness_StepKeepsTheInvariant : (fetching 0x1200).Inv ∧ ∃ t, step (fetching 0x1200) = .next t :=
  ⟨⟨by decide, by decide, by decide, by intro r h; exact absurd h (by simp [fetching, State.withFetchWord, State.placeWord])⟩, ⟨_, rfl⟩⟩

/-- A state with the latch set meets it too. -/
theorem witness_CommandsKeepTheInvariant : ((fetching 0x00EE).takeFault .stackUnderflow).Inv ∧
    ∃ t response, command (.load [0x12, 0x00]) ((fetching 0x00EE).takeFault .stackUnderflow) = .next (t, response) := by
  refine ⟨⟨by decide, by decide, by decide, ?_⟩, ⟨_, _, rfl⟩⟩
  intro r h
  cases h
  exact ⟨rfl, by decide⟩

/-- A run that reaches the bound (V-CF-18). -/
theorem witness_ReachablePcNeverExceeds0x10FE :
    afterCommands (runCommands [.load [0x60, 0xFF, 0xBF, 0xFF], .tick 0, .tick 0] { State.reset with font := Config.defaultFont })
      (fun t _ => t.pc.toNat) = some 0x10FE := by
  decide

/-- Two histories of writes that end in the same bytes. -/
theorem witness_CanonicalMemoryIsDeterminedByItsBytes :
    let s := bytes [(0x300, 1), (0x301, 2), (0x300, 3)] State.reset
    let t := bytes [(0x301, 2), (0x300, 3)] State.reset
    s.font = t.font ∧ Memory.wf s.font s.mem = true ∧ Memory.wf t.font t.mem = true ∧ ∀ a, a < 4096 → s.byteAt a = t.byteAt a :=
  ⟨rfl, by decide, by decide, fun _ _ => rfl⟩

/-- Two states that differ in a slot above `sp`. -/
theorem witness_StaleStackSlotsAreNeverObserved :
    let s := fetching 0x2300
    let t := { fetching 0x2300 with stack := Vector.replicate 16 0x206 }
    SameUpToStaleSlots s t ∧ s.stack ≠ t.stack ∧ ∃ s', step s = .next s' := by
  refine ⟨⟨rfl, fun k hk => absurd hk (by simp [fetching, State.withFetchWord, State.placeWord, State.reset])⟩, by decide, ⟨_, rfl⟩⟩

end Sys2Proof.Tests
end

section
/-! SUPPORT. The settling of the statements about the state (10_state.md): first one fact per operation (the decoder, the fetch,
the tick, an execution, a run of commands), then the statements, each assembled from them. -/

namespace Sys2Proof.Machine

/-! ### The decoder gives well-formed instructions -/

theorem addressFits_fieldNnn (op : Word) : addressFits (fieldNnn op) = true := by
  have := fieldNnn_toNat op
  simp only [addressFits, decide_eq_true_eq]
  omega

theorem heightFits_fieldN (op : Word) : heightFits (fieldN op).toNat = true := by
  have := (fieldN op).isLt
  simpa [heightFits] using this

theorem wellFormed_of_decodeGroup0 {op : Word} {i : Instr} (h : decodeGroup0 op = some i) : i.wellFormed = true := by
  unfold decodeGroup0 at h
  split at h
  · cases h; rfl
  · split at h <;> cases h
    rfl

theorem wellFormed_of_decodeGroup8 {op : Word} {i : Instr} (h : decodeGroup8 op = some i) : i.wellFormed = true := by
  unfold decodeGroup8 at h
  split at h <;> cases h <;> rfl

theorem wellFormed_of_decodeGroupE {op : Word} {i : Instr} (h : decodeGroupE op = some i) : i.wellFormed = true := by
  unfold decodeGroupE at h
  split at h <;> cases h <;> rfl

theorem wellFormed_of_decodeGroupF {op : Word} {i : Instr} (h : decodeGroupF op = some i) : i.wellFormed = true := by
  unfold decodeGroupF at h
  split at h <;> cases h <;> rfl

/-- Every operand the decoder reads fits its field (R93). -/
theorem wellFormed_of_decodeByGroup {op : Word} {i : Instr} (h : decodeByGroup op = some i) : i.wellFormed = true := by
  unfold decodeByGroup at h
  split at h
  case h_1 => exact wellFormed_of_decodeGroup0 h
  case h_9 => exact wellFormed_of_decodeGroup8 h
  case h_15 => exact wellFormed_of_decodeGroupE h
  case h_16 => exact wellFormed_of_decodeGroupF h
  case h_6 | h_10 => split at h <;> cases h; rfl
  case h_14 => cases h; exact heightFits_fieldN op
  case h_2 | h_3 | h_11 | h_12 => cases h; exact addressFits_fieldNnn op
  all_goals cases h <;> rfl

/-! ### What the fetch gives -/

/-- The info of a latched AddressOutOfRange is above 4095 and is still an address of 16 bits (R64). -/
theorem firstAddressOutside_bounds (base : Word) :
    4096 ≤ firstAddressOutside base.toNat ∧ firstAddressOutside base.toNat ≤ 65535 := by
  have := base.isLt
  simp only [firstAddressOutside]
  omega

theorem State.wellFormed_of_fetchInstr_ok {s : State} {i : Instr} (h : s.fetchInstr = .ok i) : i.wellFormed = true := by
  rw [s.fetchInstr_inside (s.pc_of_fetchInstr_ok i h)] at h
  split at h <;> cases h
  exact wellFormed_of_decodeByGroup ‹_›

/-- A fault of the fetch or the decode is one that could be raised at this pc (R260). -/
theorem State.latchExplained_of_fetchInstr_error {s : State} {f : Fault} (h : s.fetchInstr = .error f) :
    s.latchExplained { kind := f, faultPc := s.pc } := by
  by_cases hpc : s.pc.toNat ≤ 4094
  · rw [s.fetchInstr_inside hpc] at h
    split at h <;> cases h
    exact ⟨rfl, ‹_›⟩
  · rw [s.fetchInstr_outside (by omega)] at h
    cases h
    exact ⟨rfl, firstAddressOutside_bounds s.pc⟩

/-- The info of a latched InvalidKeyIndex is above 15 and is still a register's value (R242). -/
theorem keyFault_bounds {vx : Byte} (h : ¬ vx.toNat < 16) : 16 ≤ vx.toNat ∧ vx.toNat ≤ 255 := by
  have := vx.isLt
  omega

/-! ### The bounds of pc (10_state.md R25) -/

theorem advance_pc_le {pc : Word} (h : pc.toNat ≤ 4094) : (pc + 2).toNat ≤ 4096 := by bv_omega

theorem skipIf_pc_le {s : State} (c : Bool) (h : s.pc.toNat ≤ 4094) : (s.advance.skipIf c).pc.toNat ≤ 4098 := by
  rw [State.skipIf_pc, State.advance_pc]
  split <;> bv_omega

theorem indexedTarget_le (v0 : Byte) {nnn : Word} (h : nnn.toNat < 4096) : (indexedTarget v0 nnn).toNat ≤ 0x10FE := by
  have := v0.isLt
  simp only [indexedTarget, BitVec.toNat_add, BitVec.toNat_setWidth]
  omega

theorem toNat_lt_of_addressFits {nnn : Word} (h : addressFits nnn = true) : nnn.toNat < 4096 := by
  simpa [addressFits] using h

/-! ### What an execution can do -/

/-- Every call-stack slot is at most 4096 (10_state.md R25). -/
def State.SlotsBounded (s : State) : Prop := ∀ k : Fin 16, (s.stack[k]).toNat ≤ 4096

/-- What an instruction that completes from `s` leaves in `t`, as far as the invariant and `wait_key` go: the latch as it was,
`wait_key` set by a fruitless key wait alone (R124), memory in canonical form, and `pc` and the slots within R25's bounds. -/
structure Completes (i : Instr) (s t : State) : Prop where
  latch : t.fault = s.fault
  waits : t.waitKey = true ↔ (∃ x, i = .ldVxK x) ∧ ∀ k : Fin 16, s.key[k] = false
  memWf : Memory.wf s.font s.mem = true → Memory.wf t.font t.mem = true
  pcBound : i.wellFormed = true → s.pc.toNat ≤ 4094 → s.SlotsBounded → t.pc.toNat ≤ 0x10FE
  slotBound : s.pc.toNat ≤ 4094 → s.SlotsBounded → t.SlotsBounded

/-- An instruction other than the key wait clears `wait_key` (R124). -/
theorem waits_of_not_keyWait {i : Instr} {s t : State} (hi : ∀ x, i ≠ .ldVxK x) (ht : t.waitKey = false) :
    t.waitKey = true ↔ (∃ x, i = .ldVxK x) ∧ ∀ k : Fin 16, s.key[k] = false :=
  ⟨fun h => absurd h (by simp [ht]), fun ⟨⟨x, hx⟩, _⟩ => absurd hx (hi x)⟩

/-- An instruction that leaves memory, the call stack, the keys and the latch alone. -/
theorem Completes.of_registers {i : Instr} {s t : State} (hi : ∀ x, i ≠ .ldVxK x)
    (ht : t = { s.advance with v := t.v, i := t.i, pc := t.pc, dt := t.dt, st := t.st, disp := t.disp, draws := t.draws })
    (hpc : i.wellFormed = true → s.pc.toNat ≤ 4094 → t.pc.toNat ≤ 0x10FE) : Completes i s t := by
  rw [ht]
  exact ⟨rfl, waits_of_not_keyWait hi rfl, id, fun hw hs _ => hpc hw hs, fun _ => id⟩

/-- An instruction whose next instruction is the one after it. -/
theorem Completes.of_advance {i : Instr} {s t : State} (hi : ∀ x, i ≠ .ldVxK x)
    (ht : t = { s.advance with v := t.v, i := t.i, dt := t.dt, st := t.st, disp := t.disp, draws := t.draws }) :
    Completes i s t := by
  rw [ht]
  exact .of_registers hi rfl fun _ hs => (advance_pc_le hs).trans (by decide)

/-- A skip (R143). -/
theorem Completes.of_skip {i : Instr} {s : State} (c : Bool) (hi : ∀ x, i ≠ .ldVxK x) :
    Completes i s (s.advance.skipIf c) :=
  .of_registers hi (by rw [State.skipIf_eq]) fun _ hs => (skipIf_pc_le c hs).trans (by decide)

/-- A jump to a target in bounds. -/
theorem Completes.of_jump {i : Instr} {s : State} {target : Word} (hi : ∀ x, i ≠ .ldVxK x)
    (htarget : i.wellFormed = true → target.toNat ≤ 0x10FE) : Completes i s (s.advance.setPc target) :=
  .of_registers hi rfl fun hw _ => htarget hw

/-- A store that stays inside memory. -/
theorem Completes.of_store {i : Instr} {s : State} {base : Nat} {bs : List Byte} (hi : ∀ x, i ≠ .ldVxK x)
    (hin : base + bs.length ≤ 4096) :
    Completes i s { s.advance with mem := Memory.writeList s.font s.mem base bs } where
  latch := rfl
  waits := waits_of_not_keyWait hi rfl
  memWf := Memory.wf_writeList bs s.mem base hin
  pcBound _ hs _ := (advance_pc_le hs).trans (by decide)
  slotBound _ := id

theorem Completes.of_return {s : State} (_h : s.sp.val ≠ 0) (sp : Fin 17) :
    Completes .ret s { s.advance with pc := s.stack[s.sp.val - 1]'(by omega), sp := sp } where
  latch := rfl
  waits := waits_of_not_keyWait nofun rfl
  memWf := id
  pcBound _ _ hslots := (hslots ⟨s.sp.val - 1, by omega⟩).trans (by decide)
  slotBound _ := id

theorem State.SlotsBounded.set {s : State} (hs : s.SlotsBounded) {w : Word} (hw : w.toNat ≤ 4096) (n : Nat) (hn : n < 16)
    (k : Fin 16) : ((s.stack.set n w)[k]).toNat ≤ 4096 := by
  rw [Fin.getElem_fin, Vector.getElem_set]
  split
  · exact hw
  · exact hs k

theorem Completes.of_call {s : State} {nnn : Word} (h : s.sp.val < 16) (sp : Fin 17) :
    Completes (.callNnn nnn) s
      { s.advance with pc := nnn, stack := s.stack.set s.sp.val (s.pc + 2), sp := sp } where
  latch := rfl
  waits := waits_of_not_keyWait nofun rfl
  memWf := id
  pcBound hw _ _ := (toNat_lt_of_addressFits hw).le.trans (by decide)
  slotBound hs hslots := hslots.set (advance_pc_le hs) s.sp.val h

theorem Completes.of_keyFound {s : State} {x : RegIdx} {k : Fin 16} (h : lowestKey s.key = some k) (b : Byte) :
    Completes (.ldVxK x) s (s.advance.setReg x b) where
  latch := rfl
  waits := by
    have hk := ((lowestKey_eq_some s.key k).1 h).1
    exact ⟨nofun, fun ⟨_, hnone⟩ => absurd hk (by simp [hnone k])⟩
  memWf := id
  pcBound _ hs _ := (advance_pc_le hs).trans (by decide)
  slotBound _ := id

theorem Completes.of_keyWait {s : State} {x : RegIdx} (h : lowestKey s.key = none) :
    Completes (.ldVxK x) s ((s.advance.setPc (s.pc + 2 - 2)).setWait true) where
  latch := rfl
  waits := ⟨fun _ => ⟨⟨x, rfl⟩, (lowestKey_eq_none s.key).1 h⟩, fun _ => rfl⟩
  memWf := id
  pcBound _ hs _ := by
    simp only [State.setWait_pc, State.setPc_pc, BitVec.add_sub_cancel]
    omega
  slotBound _ := id

/-- The two answers of an execution of `i` from `s`: it completes, or it takes a fault that could be raised there (R126, R260). -/
inductive ExecOutcome (i : Instr) (s : State) : Host.Outcome State Fault Refusal → Prop
  | completes {t : State} (h : Completes i s t) : ExecOutcome i s (.next t)
  | faults {f : Fault} (h : s.latchExplained { kind := f, faultPc := s.pc }) : ExecOutcome i s (.next (s.takeFault f))

theorem exec_outcome (i : Instr) (s : State) : ExecOutcome i s (exec i s) := by
  cases i
  case ret =>
    rw [execRet_eq]
    split
    · exact .faults ⟨rfl, ‹_›⟩
    · exact .completes (.of_return ‹_› _)
  case callNnn =>
    rw [execCallNnn_eq]
    split
    · exact .completes (.of_call ‹_› _)
    · exact .faults ⟨rfl, show s.sp.val = 16 by omega⟩
  case ldBVx x =>
    rw [execLdBVx_eq]
    split
    · exact .completes (.of_store nofun (by rw [bcdDigits_length]; omega))
    · exact .faults ⟨rfl, firstAddressOutside_bounds s.i⟩
  case ldMemVx x =>
    rw [execLdMemVx_eq]
    split
    · exact .completes (.of_store nofun (by rw [State.regsUpTo_length]; omega))
    · exact .faults ⟨rfl, firstAddressOutside_bounds s.i⟩
  case ldVxMem =>
    rw [execLdVxMem_eq]
    split
    · exact .completes (.of_advance nofun rfl)
    · exact .faults ⟨rfl, firstAddressOutside_bounds s.i⟩
  case drwVxVyN =>
    rw [execDrwVxVyN_eq]
    split
    · exact .completes (.of_advance nofun rfl)
    · exact .faults ⟨rfl, firstAddressOutside_bounds s.i⟩
  case skpVx x =>
    rw [execSkpVx_eq]
    split
    · exact .completes (.of_skip _ nofun)
    · exact .faults ⟨rfl, keyFault_bounds ‹_›⟩
  case sknpVx x =>
    rw [execSknpVx_eq]
    split
    · exact .completes (.of_skip _ nofun)
    · exact .faults ⟨rfl, keyFault_bounds ‹_›⟩
  case ldVxK =>
    rw [execLdVxK_eq]
    split
    · exact .completes (.of_keyFound ‹_› _)
    · exact .completes (.of_keyWait ‹_›)
  case seVxKk | sneVxKk | seVxVy | sneVxVy => exact .completes (.of_skip _ nofun)
  case jpNnn =>
    exact .completes (.of_jump nofun fun hw => (toNat_lt_of_addressFits hw).le.trans (by decide))
  case jpV0Nnn =>
    exact .completes (.of_jump nofun fun hw => indexedTarget_le _ (toNat_lt_of_addressFits hw))
  all_goals exact .completes (.of_advance nofun rfl)

/-- A tick given its entropy byte: RND too only writes a register (R186). -/
theorem execWith_outcome (rnd : Byte) (i : Instr) (s : State) : ExecOutcome i s (execWith rnd i s) := by
  by_cases hi : ∃ x kk, i = .rndVxKk x kk
  · obtain ⟨x, kk, rfl⟩ := hi
    exact .completes (.of_advance nofun rfl)
  · rw [execWith_eq rnd i s fun x kk h => hi ⟨x, kk, h⟩]
    exact exec_outcome i s

/-! ### A tick, by what its latch and its fetch give -/

section
variable {ex : Instr → State → Host.Outcome State Fault Refusal} {s : State}

theorem tickBy_latched (hfault : s.fault ≠ none) : tickBy ex s = .next s := by
  obtain ⟨r, hr⟩ := Option.ne_none_iff_exists'.1 hfault
  simp only [tickBy, hr]

theorem tickBy_fetch_error {f : Fault} (hfault : s.fault = none) (hfetch : s.fetchInstr = .error f) :
    tickBy ex s = .next (s.takeFault f) := by
  simp only [tickBy, hfault, hfetch]

theorem tickBy_fetch_ok {i : Instr} (hfault : s.fault = none) (hfetch : s.fetchInstr = .ok i) :
    tickBy ex s = ex i s := by
  simp only [tickBy, hfault, hfetch]

end

/-! ### The invariant -/

theorem State.Inv.takeFault {s : State} {f : Fault} (h : s.Inv) (hf : s.latchExplained { kind := f, faultPc := s.pc }) :
    (s.takeFault f).Inv where
  memWf := h.memWf
  pcBound := h.pcBound
  slotBound := h.slotBound
  latchTrue := by
    rintro _ ⟨⟩
    exact hf

theorem State.Inv.of_completes {i : Instr} {s t : State} (h : s.Inv) (hfault : s.fault = none)
    (hfetch : s.fetchInstr = .ok i) (hc : Completes i s t) : t.Inv where
  memWf := hc.memWf h.memWf
  pcBound := hc.pcBound (State.wellFormed_of_fetchInstr_ok hfetch) (s.pc_of_fetchInstr_ok i hfetch) h.slotBound
  slotBound := hc.slotBound (s.pc_of_fetchInstr_ok i hfetch) h.slotBound
  latchTrue := by simp [hc.latch, hfault]

/-- A state that differs from one that meets the invariant neither in `pc`, the call stack and the latch, nor in FONT, and whose
memory is in canonical form. -/
theorem State.Inv.of_frame {s t : State} (h : s.Inv)
    (ht : t = { t with pc := s.pc, sp := s.sp, stack := s.stack, fault := s.fault, font := s.font })
    (hmem : Memory.wf s.font t.mem = true) : t.Inv := by
  rw [ht]
  exact ⟨hmem, h.pcBound, h.slotBound, h.latchTrue⟩

/-- A tick keeps the invariant, whichever execution it runs. -/
theorem tickBy_inv {ex : Instr → State → Host.Outcome State Fault Refusal} (hex : ∀ i s, ExecOutcome i s (ex i s))
    {s t : State} (h : s.Inv) (ht : tickBy ex s = .next t) : t.Inv := by
  rcases tickBy_cases ex s with ⟨-, hs⟩ | ⟨f, -, hfetch, hs⟩ | ⟨i, hfault, hfetch, hs⟩ <;> rw [hs] at ht
  · cases ht
    exact h
  · cases ht
    exact h.takeFault (State.latchExplained_of_fetchInstr_error hfetch)
  · have ho := hex i s
    rw [ht] at ho
    cases ho with
    | completes hc => exact h.of_completes hfault hfetch hc
    | faults hf => exact h.takeFault hf

/-- Settles O54: the execution of `exec` is one of those `tickBy_inv` speaks of. -/
theorem stepKeepsTheInvariant : Obligations.StepKeepsTheInvariant :=
  fun _ _ h ht => tickBy_inv exec_outcome h ht

/-- The state after reset meets the invariant, whatever FONT (R40). -/
theorem reset_inv (font : Font) (draws : Nat) : ({ State.reset with font := font, draws := draws } : State).Inv where
  memWf := Memory.wf_nil
  pcBound := show State.reset.pc.toNat ≤ 0x10FE by decide
  slotBound := show ∀ k : Fin 16, (State.reset.stack[k]).toNat ≤ 4096 by decide
  latchTrue := nofun

/-- Settles O53: the reset state is the one with the default FONT. -/
theorem resetStateMeetsTheInvariant : Obligations.ResetStateMeetsTheInvariant :=
  reset_inv Config.defaultFont 0

theorem load_inv {s : State} (h : s.Inv) (bytes : List Byte) : (s.load bytes).1.Inv := by
  unfold State.load
  split
  · exact h
  · next hlen =>
    have hin : Config.romBase + bytes.length ≤ 4096 := by
      simp only [Config.romMax, Config.romBase] at hlen ⊢
      omega
    exact h.of_frame rfl (Memory.wf_writeList bytes s.mem _ hin h.memWf)

theorem keypress_inv {s : State} (h : s.Inv) (index : Nat) (pressed : Bool) : (s.keypress index pressed).1.Inv := by
  unfold State.keypress
  split
  · exact h.of_frame rfl h.memWf
  · exact h

/-- The command `tick` is a tick of the execution that is given the entropy byte. -/
theorem command_tick_next {rnd : Byte} {s t : State} {response : Response}
    (h : command (.tick rnd) s = .next (t, response)) : tickBy (execWith rnd) s = .next t := by
  simp only [command] at h
  split at h <;> cases h
  assumption

/-- Settles O55, command by command. -/
theorem commandsKeepTheInvariant : Obligations.CommandsKeepTheInvariant := by
  intro c s t response h hc
  cases c with
  | tick rnd => exact tickBy_inv (execWith_outcome rnd) h (command_tick_next hc)
  | tickTimer => cases hc; exact h.of_frame rfl h.memWf
  | keypress index pressed =>
    obtain rfl : (s.keypress index pressed).1 = t := congrArg Prod.fst (Host.Outcome.next.inj hc)
    exact keypress_inv h index pressed
  | load bytes =>
    obtain rfl : (s.load bytes).1 = t := congrArg Prod.fst (Host.Outcome.next.inj hc)
    exact load_inv h bytes
  | reset => cases hc; exact reset_inv s.font s.draws
  | getDisplay => cases hc; exact h
  | observe => cases hc; exact h

/-! ### Every command answers -/

theorem ExecOutcome.answers {i : Instr} {s : State} {o : Host.Outcome State Fault Refusal} (h : ExecOutcome i s o) :
    ∃ t, o = .next t := by
  cases h <;> exact ⟨_, rfl⟩

/-- A tick answers when the execution it runs does. -/
theorem tickBy_answers {ex : Instr → State → Host.Outcome State Fault Refusal} (hex : ∀ i s, ExecOutcome i s (ex i s))
    (s : State) : ∃ t, tickBy ex s = .next t := by
  rcases tickBy_cases ex s with ⟨-, hs⟩ | ⟨f, -, -, hs⟩ | ⟨i, -, -, hs⟩
  · exact ⟨_, hs⟩
  · exact ⟨_, hs⟩
  · rw [hs]
    exact (hex i s).answers

/-- Settles O11: a tick answers, and no other command has a case without an answer. -/
theorem everyCommandAnswers : Obligations.EveryCommandAnswers := by
  refine ⟨tickBy_answers exec_outcome, fun c s => ?_⟩
  cases c with
  | tick rnd =>
    obtain ⟨t, ht⟩ := tickBy_answers (execWith_outcome rnd) s
    exact ⟨t, tickResponse t, by simp only [command, tickWith, ht]⟩
  | tickTimer | keypress | load | reset | getDisplay | observe => exact ⟨_, _, rfl⟩

/-! ### Runs of commands -/

/-- A run is its first command, then the run of the others. -/
theorem runCommands_cons_next {c : Command} {cs : List Command} {s u : State} {responses : List Response}
    (h : runCommands (c :: cs) s = .next (u, responses)) :
    ∃ t first rest, command c s = .next (t, first) ∧ runCommands cs t = .next (u, rest) := by
  obtain ⟨t, first, hc⟩ := everyCommandAnswers.2 c s
  simp only [runCommands, hc] at h
  split at h <;> cases h
  exact ⟨t, first, _, hc, ‹_›⟩

theorem runCommands_inv {cs : List Command} {s t : State} {responses : List Response} (h : s.Inv)
    (hrun : runCommands cs s = .next (t, responses)) : t.Inv := by
  induction cs generalizing s responses with
  | nil => cases hrun; exact h
  | cons c cs ih =>
    obtain ⟨_, first, _, hc, hcs⟩ := runCommands_cons_next hrun
    exact ih (commandsKeepTheInvariant c _ _ first h hc) hcs

/-- Settles O56: the bound is a part of the invariant, which the reset state meets and every run keeps. -/
theorem reachablePcNeverExceeds0x10FE : Obligations.ReachablePcNeverExceeds0x10FE :=
  fun font _ _ _ hrun => (runCommands_inv (reset_inv font 0) hrun).pcBound

/-! ### `wait_key` after a tick -/

/-- Settles O14: a tick that latches no fault runs its instruction to completion. -/
theorem waitKeyReportsAFruitlessWait : Obligations.WaitKeyReportsAFruitlessWait := by
  intro s t hfault ht htfault
  rcases tickBy_cases exec s with ⟨hs, -⟩ | ⟨f, -, -, hs⟩ | ⟨i, -, hfetch, hs⟩
  · exact absurd hfault hs
  · cases hs.symm.trans ht
    cases htfault
  · have ho := exec_outcome i s
    rw [← hs, show tickBy exec s = .next t from ht] at ho
    cases ho with
    | completes hc => simp only [hc.waits, hfetch, Except.ok.injEq]
    | faults hf => cases htfault

/-! ### The display and the call stack are seen by few instructions -/

/-- An instruction that uses neither the display nor the call stack: with others under it, it answers the same next state, on the
others, and leaves them as they are (10_state.md R30, R34). -/
theorem exec_with_disp_stack (i : Instr) (s : State) (hcls : i ≠ .cls) (hdrw : ∀ x y n, i ≠ .drwVxVyN x y n)
    (hret : i ≠ .ret) (hcall : ∀ nnn, i ≠ .callNnn nnn) :
    ∃ t, exec i s = .next t ∧ t.disp = s.disp ∧ t.stack = s.stack ∧ t.sp = s.sp ∧
      ∀ d st, exec i { s with disp := d, stack := st } = .next { t with disp := d, stack := st } := by
  cases i
  case cls => exact absurd rfl hcls
  case drwVxVyN x y n => exact absurd rfl (hdrw x y n)
  case ret => exact absurd rfl hret
  case callNnn nnn => exact absurd rfl (hcall nnn)
  case ldBVx | ldMemVx | ldVxMem | skpVx | sknpVx | ldVxK =>
    simp only [execLdBVx_eq, execLdMemVx_eq, execLdVxMem_eq, execSkpVx_eq, execSknpVx_eq, execLdVxK_eq, State.regsUpTo,
      State.setRegs, State.spriteAt, State.byteAt, State.skipIf_eq]
    split <;> exact ⟨_, rfl, rfl, rfl, rfl, fun _ _ => rfl⟩
  case seVxKk | sneVxKk | seVxVy | sneVxVy =>
    simp only [execSeVxKk_eq, execSneVxKk_eq, execSeVxVy_eq, execSneVxVy_eq, State.skipIf_eq]
    exact ⟨_, rfl, rfl, rfl, rfl, fun _ _ => rfl⟩
  all_goals exact ⟨_, rfl, rfl, rfl, rfl, fun _ _ => rfl⟩

/-- RET and CALL do not use the display. -/
theorem exec_ret_with_disp (s : State) : ∃ t, exec .ret s = .next t ∧ t.disp = s.disp ∧
    ∀ d, exec .ret { s with disp := d } = .next { t with disp := d } := by
  simp only [execRet_eq]
  split <;> exact ⟨_, rfl, rfl, fun _ => rfl⟩

theorem exec_call_with_disp (nnn : Word) (s : State) : ∃ t, exec (.callNnn nnn) s = .next t ∧ t.disp = s.disp ∧
    ∀ d, exec (.callNnn nnn) { s with disp := d } = .next { t with disp := d } := by
  simp only [execCallNnn_eq]
  split <;> exact ⟨_, rfl, rfl, fun _ => rfl⟩

/-- Every instruction but CLS and DRW runs alike on another display (R34). -/
theorem exec_with_disp (i : Instr) (s : State) (hcls : i ≠ .cls) (hdrw : ∀ x y n, i ≠ .drwVxVyN x y n) :
    ∃ t, exec i s = .next t ∧ t.disp = s.disp ∧ ∀ d, exec i { s with disp := d } = .next { t with disp := d } := by
  by_cases hret : i = .ret
  · subst hret
    exact exec_ret_with_disp s
  by_cases hcall : ∃ nnn, i = .callNnn nnn
  · obtain ⟨nnn, rfl⟩ := hcall
    exact exec_call_with_disp nnn s
  obtain ⟨t, ht, hdisp, hstack, -, hwith⟩ :=
    exec_with_disp_stack i s hcls hdrw hret fun nnn h => hcall ⟨nnn, h⟩
  refine ⟨t, ht, hdisp, fun d => ?_⟩
  rw [hwith d s.stack, ← hstack]

/-- Settles O38: CLS clears whatever display it finds; the others are `exec_with_disp`. -/
theorem onlyClsAndDrwTouchTheDisplay : Obligations.OnlyClsAndDrwTouchTheDisplay := by
  intro i s d hdrw
  by_cases hcls : i = .cls
  · subst hcls
    exact ⟨_, rfl, rfl, fun h => absurd rfl h⟩
  · obtain ⟨t, ht, hdisp, hwith⟩ := exec_with_disp i s hcls hdrw
    exact ⟨t, ht, by rw [if_neg hcls]; exact hwith d, fun _ => hdisp⟩

/-! ### Stale stack slots -/

/-- An execution gives, from a state that differs in stale slots only, a state that differs in stale slots only. -/
def IgnoresStaleSlots (i : Instr) (s : State) (st : Vector Word 16) : Prop :=
  ∃ s' t', exec i s = .next s' ∧ exec i { s with stack := st } = .next t' ∧ SameUpToStaleSlots s' t'

section
variable {s : State} {st : Vector Word 16} (hst : ∀ k : Fin 16, k.val < s.sp.val → st[k] = s.stack[k])
include hst

/-- RET reads the slot below `sp` and leaves fewer slots live. -/
theorem ret_ignoresStaleSlots : IgnoresStaleSlots .ret s st := by
  simp only [IgnoresStaleSlots, execRet_eq]
  split
  · exact ⟨_, _, rfl, rfl, rfl, hst⟩
  · next h =>
    have htop := hst ⟨s.sp.val - 1, by omega⟩ (by simp only; omega)
    simp only [Fin.getElem_fin] at htop
    simp only [htop]
    exact ⟨_, _, rfl, rfl, rfl, fun k hk => hst k (by simp only at hk; omega)⟩

/-- CALL writes the slot at `sp` alike in both states, and makes it live. -/
theorem call_ignoresStaleSlots (nnn : Word) : IgnoresStaleSlots (.callNnn nnn) s st := by
  simp only [IgnoresStaleSlots, execCallNnn_eq]
  split
  · refine ⟨_, _, rfl, rfl, rfl, fun k hk => ?_⟩
    simp only [Fin.getElem_fin, Vector.getElem_set]
    split
    · rfl
    · exact hst k (by simp only at hk; omega)
  · exact ⟨_, _, rfl, rfl, rfl, hst⟩

theorem cls_ignoresStaleSlots : IgnoresStaleSlots .cls s st :=
  ⟨_, _, rfl, rfl, rfl, hst⟩

theorem drw_ignoresStaleSlots (x y : RegIdx) (n : Nat) : IgnoresStaleSlots (.drwVxVyN x y n) s st := by
  simp only [IgnoresStaleSlots, execDrwVxVyN_eq, State.spriteAt, State.byteAt]
  split <;> exact ⟨_, _, rfl, rfl, rfl, hst⟩

theorem exec_ignoresStaleSlots (i : Instr) : IgnoresStaleSlots i s st := by
  by_cases hret : i = .ret
  · subst hret
    exact ret_ignoresStaleSlots hst
  by_cases hcall : ∃ nnn, i = .callNnn nnn
  · obtain ⟨nnn, rfl⟩ := hcall
    exact call_ignoresStaleSlots hst nnn
  by_cases hcls : i = .cls
  · subst hcls
    exact cls_ignoresStaleSlots hst
  by_cases hdrw : ∃ x y n, i = .drwVxVyN x y n
  · obtain ⟨x, y, n, rfl⟩ := hdrw
    exact drw_ignoresStaleSlots hst x y n
  obtain ⟨s', hs', hdisp, hstack, hsp, hwith⟩ := exec_with_disp_stack i s hcls
    (fun x y n h => hdrw ⟨x, y, n, h⟩) hret fun nnn h => hcall ⟨nnn, h⟩
  refine ⟨s', _, hs', hwith s.disp st, by rw [hdisp], fun k hk => ?_⟩
  rw [hstack]
  exact hst k (hsp ▸ hk)

end

/-- Settles O58: the fetch does not see the stack, and no instruction sees a slot at `sp` or above. -/
theorem staleStackSlotsAreNeverObserved : Obligations.StaleStackSlotsAreNeverObserved := by
  intro s t s' ⟨ht, hst⟩ hs
  generalize t.stack = st at ht hst
  subst ht
  have hfetch_st : ({ s with stack := st } : State).fetchInstr = s.fetchInstr := rfl
  rcases tickBy_cases exec s with ⟨hfault, htick⟩ | ⟨f, hfault, hfetch, htick⟩ | ⟨i, hfault, hfetch, htick⟩
  · cases htick.symm.trans hs
    exact ⟨_, tickBy_latched hfault, rfl, hst⟩
  · cases htick.symm.trans hs
    exact ⟨_, tickBy_fetch_error hfault (hfetch_st.trans hfetch), rfl, hst⟩
  · obtain ⟨u, u', hu, hu', hsame⟩ := exec_ignoresStaleSlots hst i
    cases hu.symm.trans (htick.symm.trans hs)
    exact ⟨u', (tickBy_fetch_ok (s := { s with stack := st }) hfault (hfetch_st.trans hfetch)).trans hu', hsame⟩

/-! ### The call stack -/

/-- Settles O18, from what `push` and `pop` give on a full, an empty and any other stack. -/
theorem pushAndPopKeepTheStackDiscipline : Obligations.PushAndPopKeepTheStackDiscipline := by
  intro s w
  refine ⟨s.push_full w, fun h => ?push, s.pop_empty, fun h => ?pop, fun nnn t h => ?call, fun target t h => ?ret⟩
  case push =>
    refine ⟨_, s.push_room w h, by simp, rfl, fun k hk => ?_, rfl, ?_⟩
    · simp [Ne.symm hk]
    · rw [State.pop_some _ (by simp)]
      simp
  case pop => exact ⟨_, s.pop_some h, by simp only; omega, rfl⟩
  case call => simp only [exec, execCallNnn, completeOrFault, State.advance_pc, h]
  case ret => simp only [exec, execRet, completeOrFault, h]

/-! ### Runs of instructions -/

theorem execAll_cons {i : Instr} {s t : State} (is : List Instr) (h : exec i s = .next t) (ht : t.fault = none) :
    execAll (i :: is) s = execAll is t := by
  simp only [execAll, h, ht, if_true]

theorem execAll_append (is js : List Instr) (s : State) : execAll (is ++ js) s = (execAll is s).bind (execAll js) := by
  induction is generalizing s with
  | nil => rfl
  | cons i is ih =>
    obtain ⟨t, ht⟩ := exec_answers i s
    simp only [List.cons_append, execAll, ht]
    split
    · exact ih t
    · rfl

/-- The state after a CALL that finds room on the stack (R142). -/
def State.called (s : State) (nnn : Word) (h : s.sp.val < 16) : State :=
  { s.advance with pc := nnn, stack := s.stack.set s.sp.val (s.pc + 2), sp := ⟨s.sp.val + 1, by omega⟩ }

theorem exec_call_room {s : State} (nnn : Word) (h : s.sp.val < 16) : exec (.callNnn nnn) s = .next (s.called nnn h) :=
  (execCallNnn_eq nnn s).trans (dif_pos h)

/-- `u` is `s` but for `pc`, `wait_key` and stale slots: what calls and as many returns leave. -/
def Unwound (s u : State) : Prop :=
  u = { s with pc := u.pc, stack := u.stack, waitKey := u.waitKey } ∧ ∀ k : Fin 16, k.val < s.sp.val → u.stack[k] = s.stack[k]

/-- A RET after the calls nested in a CALL are unwound finds that CALL's return address, and unwinds the CALL (R140). -/
theorem exec_ret_of_unwound {s u : State} {nnn : Word} (h : s.sp.val < 16) (hu : Unwound (s.called nnn h) u) :
    exec .ret u = .next { s with pc := s.pc + 2, stack := u.stack, waitKey := false } := by
  obtain ⟨hframe, hslots⟩ := hu
  have htop : u.stack[s.sp.val] = s.pc + 2 :=
    (hslots ⟨s.sp.val, h⟩ (Nat.lt_succ_self _)).trans (Vector.getElem_set_self _)
  generalize u.pc = pc, u.waitKey = waitKey, u.stack = stack at hframe htop ⊢
  subst hframe
  have hne : (s.called nnn h).sp.val ≠ 0 := Nat.succ_ne_zero s.sp.val
  rw [← htop]
  exact (execRet_eq _).trans (dif_neg hne)

theorem unwound_of_unwound_called {s u : State} {nnn : Word} (h : s.sp.val < 16) (hu : Unwound (s.called nnn h) u) :
    Unwound s { s with pc := s.pc + 2, stack := u.stack, waitKey := false } := by
  refine ⟨rfl, fun k hk => ?_⟩
  exact (hu.2 k (Nat.lt_succ_of_lt hk)).trans (Vector.getElem_set_ne h _ (by omega))

/-- Settles O19, by induction on the targets: the calls nested in the first one are unwound, then the last RET unwinds it. -/
theorem nestedCallsUnwind : Obligations.NestedCallsUnwind := by
  intro targets
  induction targets with
  | nil => exact fun s _ _ => ⟨s, s, rfl, rfl, rfl, rfl, rfl, fun _ _ => rfl⟩
  | cons a targets ih =>
    intro s hfault hroom
    rw [List.length_cons] at hroom ⊢
    have hlt : s.sp.val < 16 := by omega
    have hsp : (s.called a hlt).sp.val = s.sp.val + 1 := rfl
    obtain ⟨t, u, ht, hdepth, hu, -, hunwound⟩ := ih (s.called a hlt) hfault (by omega)
    refine ⟨t, _, (execAll_cons _ (exec_call_room a hlt) hfault).trans ht, by omega, ?_, (if_neg nofun).symm,
      unwound_of_unwound_called hlt hunwound⟩
    rw [List.replicate_succ', execAll_append, hu, Option.bind_some,
      execAll_cons _ (exec_ret_of_unwound hlt hunwound) hfault]
    rfl

end Sys2Proof.Machine
end

section
/-! SUPPORT. The settling of the statements about memory (20_memory.md): what one address reads as after a list of bytes is
written, at each place of the list and outside it, and the two cases of `load`; then the statements, assembled from them. -/

namespace Sys2Proof.Machine

/-! ### One address after a list of bytes is written -/

section
variable {font : Font} {m : Memory} {base : Nat} {bs : List Byte}

theorem Memory.read_writeList_inside (hwf : Memory.wf font m = true) (hin : base + bs.length ≤ 4096) {k : Nat}
    (hk : k < bs.length) : Memory.read font (Memory.writeList font m base bs) (base + k) = bs[k] := by
  have hrange : base ≤ base + k ∧ base + k < base + bs.length := by omega
  rw [Memory.read_writeList bs m base _ hin hwf, dif_pos hrange]
  simp only [Nat.add_sub_cancel_left]

theorem Memory.read_writeList_outside (hwf : Memory.wf font m = true) (hin : base + bs.length ≤ 4096) {a : Nat}
    (ha : a < base ∨ base + bs.length ≤ a) :
    Memory.read font (Memory.writeList font m base bs) a = Memory.read font m a := by
  have hrange : ¬ (base ≤ a ∧ a < base + bs.length) := by omega
  rw [Memory.read_writeList bs m base a hin hwf, dif_neg hrange]

end

/-! ### The two cases of `load` -/

theorem State.load_fits {s : State} {bytes : List Byte} (h : bytes.length ≤ 3584) :
    s.load bytes = ({ s with mem := Memory.writeList s.font s.mem 0x200 bytes }, .ok) :=
  if_neg (Nat.not_lt.mpr h)

theorem State.load_tooLong {s : State} {bytes : List Byte} (h : 3584 < bytes.length) :
    s.load bytes = (s, .rejected (.outOfRangeRomLoad bytes.length)) :=
  if_pos h

/-! ### A dump that stays inside memory -/

section
variable {s t : State} {x : RegIdx} (hin : s.i.toNat + x.val ≤ 4095) (hexec : exec (.ldMemVx x) s = .next t)
include hin hexec

theorem eq_of_exec_ldMemVx :
    t = { s.advance with mem := Memory.writeList s.font s.mem s.i.toNat (s.regsUpTo x) } := by
  rw [execLdMemVx_eq, if_pos hin] at hexec
  exact (Host.Outcome.next.inj hexec).symm

/-- Register `k` of a dump stands at `I + k` (R208). -/
theorem byteAt_of_exec_ldMemVx (hwf : Memory.wf s.font s.mem = true) {k : RegIdx} (hk : k.val ≤ x.val) :
    t.byteAt (s.i.toNat + k.val) = s.v[k] := by
  have hlen : (s.regsUpTo x).length = x.val + 1 := s.regsUpTo_length x
  have hk' : k.val < (s.regsUpTo x).length := by omega
  rw [eq_of_exec_ldMemVx hin hexec]
  exact (Memory.read_writeList_inside hwf (by omega) hk').trans (s.regsUpTo_getElem x k hk')

end

/-! ### The statements -/

/-- Settles O32: the dump stores V0 and V1 at `I` and `I + 1`, and the next pc is `I`. -/
theorem storedWordIsFetchedNext : Obligations.StoredWordIsFetchedNext := by
  intro s t x hwf hx hin hi hexec
  have hpc : t.pc = s.i := by rw [eq_of_exec_ldMemVx hin hexec, hi]; rfl
  have hv0 : t.byteAt s.i.toNat = s.v[0] := byteAt_of_exec_ldMemVx hin hexec hwf (k := 0) (Nat.zero_le _)
  have hv1 : t.byteAt (s.i.toNat + 1) = s.v[1] := byteAt_of_exec_ldMemVx hin hexec hwf (k := 1) hx
  rw [State.fetchWord_inside t (by rw [hpc]; omega), hpc, hv0, hv1]

/-- Settles O47: a ROM that fits ends inside memory, so every address reads as its byte of the ROM or as before. -/
theorem loadCopiesTheRom : Obligations.LoadCopiesTheRom := by
  intro s bytes hwf
  refine ⟨fun hfits => ?fits, fun hlong => ?tooLong⟩
  case fits =>
    have hin : 0x200 + bytes.length ≤ 4096 := by omega
    exact ⟨_, congrArg Host.Outcome.next (State.load_fits hfits), fun k hk => Memory.read_writeList_inside hwf hin hk,
      fun a ha => Memory.read_writeList_outside hwf hin ha, rfl⟩
  case tooLong => exact congrArg Host.Outcome.next (State.load_tooLong hlong)

/-- Settles O57: above the 4096 bytes both memories read as unlisted, so they read alike everywhere. -/
theorem canonicalMemoryIsDeterminedByItsBytes : Obligations.CanonicalMemoryIsDeterminedByItsBytes := by
  intro s t hfont hs ht hbytes
  rw [← hfont] at ht
  refine Memory.eq_of_read_eq s.mem t.mem 0 hs ht fun a => ?_
  by_cases ha : a < 4096
  · have hbyte : Memory.read s.font s.mem a = Memory.read t.font t.mem a := hbytes a ha
    rwa [← hfont] at hbyte
  · have habove : 4096 ≤ a := Nat.not_lt.mp ha
    rw [Memory.read_above s.mem 0 a hs habove, Memory.read_above t.mem 0 a ht habove]

end Sys2Proof.Machine
end

section
/-! SUPPORT. The settling of the statements about the encoding (30_encoding.md): the decoder on a word of each format, the word of
what it decodes to, the words it rejects, and the words that match a row of the opcode map; then the statements, assembled from
them. -/

namespace Sys2Proof.Machine

/-! ### The answers of `decodeWord` -/

theorem decodeWord_eq_ok_iff {op : Word} {i : Instr} : decodeWord op = .ok i ↔ decodeByGroup op = some i := by
  unfold decodeWord
  cases decodeByGroup op <;> simp

theorem decodeWord_of_decodeByGroup_none {op : Word} (h : decodeByGroup op = none) :
    decodeWord op = .error (.unimplementedOpcode op) := by
  simp only [decodeWord, h]

/-! ### Decoding the word of an instruction (R92, R94) -/

/-- The formats keep every operand, and the group and the function code find the instruction again. -/
theorem decodeByGroup_encode {i : Instr} (h : i.wellFormed = true) : decodeByGroup (encode i) = some i := by
  cases i
  case cls | ret => rfl
  case jpNnn | callNnn | ldINnn | jpV0Nnn =>
    simp [encode, decodeByGroup, fieldNnn_formatFA _ _ h]
  case drwVxVyN x y n =>
    have hn : n < 16 := by simpa [Instr.wellFormed, heightFits] using h
    simp [encode, decodeByGroup, Nat.mod_eq_of_lt hn]
  case seVxKk | sneVxKk | ldVxKk | addVxKk | rndVxKk | seVxVy | sneVxVy => simp [encode, decodeByGroup]
  case skpVx | sknpVx => simp [encode, decodeByGroup, decodeGroupE]
  case ldVxDT | ldVxK | ldDTVx | ldSTVx | addIVx | ldFVx | ldBVx | ldMemVx | ldVxMem =>
    simp [encode, decodeByGroup, decodeGroupF]
  all_goals simp [encode, decodeByGroup, decodeGroup8]

theorem decodeWord_encode {i : Instr} (h : i.wellFormed = true) : decodeWord (encode i) = .ok i :=
  decodeWord_eq_ok_iff.2 (decodeByGroup_encode h)

/-- Decoding the stored bytes of a word is decoding the word (R63, R90). -/
theorem decodeBytes_bytesOfWord {op : Word} {i : Instr} (rest : List Byte) (h : decodeWord op = .ok i) :
    decodeBytes (bytesOfWord op ++ rest) = .ok (i, rest) := by
  simp only [bytesOfWord, List.cons_append, List.nil_append, decodeBytes, wordOfBytes_bytes, h]

/-! ### The word of what a word decodes to -/

section
variable {op : Word} {g : BitVec 4} (hg : fieldG op = g)
include hg

theorem formatFA_of_fields : formatFA g (fieldNnn op) = op := by
  rw [← hg, formatFA_fields]

theorem formatFXK_of_fields {kk : Byte} (hkk : fieldKk op = kk) : formatFXK g (fieldX op) kk = op := by
  rw [← hg, ← hkk, formatFXK_fields]

theorem formatFXYN_of_fields {n : BitVec 4} (hn : fieldN op = n) : formatFXYN g (fieldX op) (fieldY op) n = op := by
  rw [← hg, ← hn, formatFXYN_fields]

end

section
variable {op : Word} {i : Instr}

theorem encode_of_decodeGroup0 (h : decodeGroup0 op = some i) : encode i = op := by
  unfold decodeGroup0 at h
  split at h
  · next hop => cases h; exact hop.symm
  · split at h <;> cases h
    next hop => exact hop.symm

theorem encode_of_decodeGroup8 (hg : fieldG op = 0x8#4) (h : decodeGroup8 op = some i) : encode i = op := by
  unfold decodeGroup8 at h
  split at h <;> cases h
  all_goals exact formatFXYN_of_fields hg ‹_›

theorem encode_of_decodeGroupE (hg : fieldG op = 0xE#4) (h : decodeGroupE op = some i) : encode i = op := by
  unfold decodeGroupE at h
  split at h <;> cases h
  all_goals exact formatFXK_of_fields hg ‹_›

theorem encode_of_decodeGroupF (hg : fieldG op = 0xF#4) (h : decodeGroupF op = some i) : encode i = op := by
  unfold decodeGroupF at h
  split at h <;> cases h
  all_goals exact formatFXK_of_fields hg ‹_›

/-- The decoder reads every bit of the word: as an operand, or as a code it tests. -/
theorem encode_of_decodeByGroup (h : decodeByGroup op = some i) : encode i = op := by
  unfold decodeByGroup at h
  split at h
  case h_1 => exact encode_of_decodeGroup0 h
  case h_9 hg => exact encode_of_decodeGroup8 hg h
  case h_15 hg => exact encode_of_decodeGroupE hg h
  case h_16 hg => exact encode_of_decodeGroupF hg h
  case h_6 hg | h_10 hg => split at h <;> cases h; exact formatFXYN_of_fields hg ‹_›
  case h_14 hg =>
    cases h
    exact formatFXYN_of_fields hg (BitVec.ofNat_toNat 4 (fieldN op)).symm
  case h_2 hg | h_3 hg | h_11 hg | h_12 hg => cases h; exact formatFA_of_fields hg
  case h_4 hg | h_5 hg | h_7 hg | h_8 hg | h_13 hg => cases h; exact formatFXK_of_fields hg rfl
  case h_17 => cases h

end

/-! ### The rejected words (R98) -/

section
variable (op : Word)

theorem decodeGroup0_eq_none_iff : decodeGroup0 op = none ↔ op.toNat ≠ 0x00E0 ∧ op.toNat ≠ 0x00EE := by
  simp only [decodeGroup0, ← BitVec.toNat_inj]
  split_ifs <;> simp_all

theorem decodeGroup8_eq_none_iff : decodeGroup8 op = none ↔
    op.toNat % 16 = 8 ∨ op.toNat % 16 = 9 ∨ op.toNat % 16 = 10 ∨ op.toNat % 16 = 11 ∨ op.toNat % 16 = 12 ∨
      op.toNat % 16 = 13 ∨ op.toNat % 16 = 15 := by
  rw [← fieldN_toNat, decodeGroup8]
  split
  case h_10 =>
    simp only [imp_false, true_iff] at *
    bv_omega
  all_goals simp [*]

theorem decodeGroupE_eq_none_iff : decodeGroupE op = none ↔ op.toNat % 256 ≠ 0x9E ∧ op.toNat % 256 ≠ 0xA1 := by
  rw [← fieldKk_toNat, decodeGroupE]
  split
  case h_3 =>
    simp only [imp_false, true_iff] at *
    bv_omega
  all_goals simp [*]

theorem decodeGroupF_eq_none_iff : decodeGroupF op = none ↔
    op.toNat % 256 ≠ 0x07 ∧ op.toNat % 256 ≠ 0x0A ∧ op.toNat % 256 ≠ 0x15 ∧ op.toNat % 256 ≠ 0x18 ∧ op.toNat % 256 ≠ 0x1E ∧
      op.toNat % 256 ≠ 0x29 ∧ op.toNat % 256 ≠ 0x33 ∧ op.toNat % 256 ≠ 0x55 ∧ op.toNat % 256 ≠ 0x65 := by
  rw [← fieldKk_toNat, decodeGroupF]
  split
  case h_10 =>
    simp only [imp_false, true_iff] at *
    bv_omega
  all_goals simp [*]

theorem fieldN_eq_zero_iff : fieldN op = 0#4 ↔ op.toNat % 16 = 0 := by
  rw [← BitVec.toNat_inj, fieldN_toNat, BitVec.toNat_zero]

/-- Group by group: the group has no illegal word, or the illegal words of R98's clause. -/
theorem decodeByGroup_eq_none_iff : decodeByGroup op = none ↔ illegalWord op := by
  rw [illegalWord, ← fieldG_toNat, decodeByGroup]
  split
  case h_1 hg => simp [hg, decodeGroup0_eq_none_iff]
  case h_9 hg => simp [hg, decodeGroup8_eq_none_iff]
  case h_15 hg => simp [hg, decodeGroupE_eq_none_iff]
  case h_16 hg => simp [hg, decodeGroupF_eq_none_iff]
  case h_6 hg | h_10 hg => simp [hg, fieldN_eq_zero_iff]
  case h_17 =>
    -- Every group has an arm of its own, so the last one is never reached.
    exfalso
    generalize fieldG op = g at *
    revert g
    decide
  all_goals simp [*]

end

/-! ### The fields a row of the opcode map fixes (R96) -/

@[simp] theorem fieldG_ofNat (n : Nat) : fieldG (BitVec.ofNat 16 n) = BitVec.ofNat 4 (n / 4096) := by
  apply BitVec.eq_of_toNat_eq
  rw [fieldG_toNat, BitVec.toNat_ofNat, BitVec.toNat_ofNat]
  omega

@[simp] theorem fieldN_ofNat (n : Nat) : fieldN (BitVec.ofNat 16 n) = BitVec.ofNat 4 n := by
  apply BitVec.eq_of_toNat_eq
  rw [fieldN_toNat, BitVec.toNat_ofNat, BitVec.toNat_ofNat]
  omega

@[simp] theorem fieldKk_ofNat (n : Nat) : fieldKk (BitVec.ofNat 16 n) = BitVec.ofNat 8 n := by
  apply BitVec.eq_of_toNat_eq
  rw [fieldKk_toNat, BitVec.toNat_ofNat, BitVec.toNat_ofNat]
  omega

section
variable {r : OpcodeRow} {op : Word} (h : r.matchesWord op = true)
include h

theorem and_mask_of_matchesWord : op &&& r.mask = r.bits := beq_iff_eq.1 h

/-- A field the mask covers has the value the row gives it. -/
theorem extractLsb'_of_matchesWord {start len : Nat} (hmask : r.mask.extractLsb' start len = BitVec.allOnes len) :
    op.extractLsb' start len = r.bits.extractLsb' start len := by
  rw [← and_mask_of_matchesWord h, BitVec.extractLsb'_and, hmask, BitVec.and_allOnes]

theorem fieldG_of_matchesWord (hmask : fieldG r.mask = 0xF#4) : fieldG op = fieldG r.bits :=
  extractLsb'_of_matchesWord h hmask

theorem fieldN_of_matchesWord (hmask : fieldN r.mask = 0xF#4) : fieldN op = fieldN r.bits :=
  extractLsb'_of_matchesWord h hmask

theorem fieldKk_of_matchesWord (hmask : fieldKk r.mask = 0xFF#8) : fieldKk op = fieldKk r.bits :=
  extractLsb'_of_matchesWord h hmask

theorem eq_of_matchesWord (hmask : r.mask = 0xFFFF#16) : op = r.bits := by
  rw [← and_mask_of_matchesWord h, hmask]
  exact BitVec.and_allOnes.symm

end

/-- The mask of a row covers what the decoder tests on the way to an instruction of that row: the group, and the function code
where the group has one. -/
theorem exists_decodeByGroup_of_matchesWord (j : Instr) {op : Word} (h : (opcodeRow j).matchesWord op = true) :
    ∃ i, decodeByGroup op = some i ∧ opcodeRow i = opcodeRow j := by
  cases j <;> simp only [opcodeRow] at h <;> have hg := fieldG_of_matchesWord h (by decide)
  case cls | ret =>
    obtain rfl := eq_of_matchesWord h rfl
    exact ⟨_, rfl, rfl⟩
  case jpNnn | callNnn | seVxKk | sneVxKk | ldVxKk | addVxKk | ldINnn | jpV0Nnn | rndVxKk | drwVxVyN =>
    simp [decodeByGroup, hg, opcodeRow]
  case skpVx | sknpVx =>
    have hkk := fieldKk_of_matchesWord h (by decide)
    simp [decodeByGroup, hg, decodeGroupE, hkk, opcodeRow]
  case ldVxDT | ldVxK | ldDTVx | ldSTVx | addIVx | ldFVx | ldBVx | ldMemVx | ldVxMem =>
    have hkk := fieldKk_of_matchesWord h (by decide)
    simp [decodeByGroup, hg, decodeGroupF, hkk, opcodeRow]
  case seVxVy | sneVxVy =>
    have hn := fieldN_of_matchesWord h (by decide)
    simp [decodeByGroup, hg, hn, opcodeRow]
  all_goals
    have hn := fieldN_of_matchesWord h (by decide)
    simp [decodeByGroup, hg, decodeGroup8, hn, opcodeRow]

theorem exists_opcodeRow_eq_of_mem {r : OpcodeRow} (h : r ∈ opcodeTable) : ∃ j, opcodeRow j = r := by
  simp only [opcodeTable, List.mem_append, List.mem_map] at h
  obtain ((⟨j, -, hj⟩ | ⟨j, -, hj⟩) | ⟨j, -, hj⟩) | ⟨j, -, hj⟩ := h <;> exact ⟨j, hj⟩

open Laws.EncodingMatchesRow in
/-- The family EncodingMatchesRow as one statement. -/
theorem encodingMatchesRow (i : Instr) : Statement i := by
  cases i
  exacts [cls, ret, jpNnn _, callNnn _, seVxKk _ _, sneVxKk _ _, seVxVy _ _, ldVxKk _ _, addVxKk _ _, ldVxVy _ _, orVxVy _ _,
    andVxVy _ _, xorVxVy _ _, addVxVy _ _, subVxVy _ _, shrVxVy _ _, subnVxVy _ _, shlVxVy _ _, sneVxVy _ _, ldINnn _, jpV0Nnn _,
    rndVxKk _ _, drwVxVyN _ _ _, skpVx _, sknpVx _, ldVxDT _, ldVxK _, ldDTVx _, ldSTVx _, addIVx _, ldFVx _, ldBVx _, ldMemVx _,
    ldVxMem _]

/-! ### The statements -/

/-- Settles O1: the two stored bytes of the word make the word again, and the word decodes to the instruction. -/
theorem decodeOfEncodeIsTheInstruction : Obligations.DecodeOfEncodeIsTheInstruction :=
  fun _ rest h => ⟨decodeWord_encode h, decodeBytes_bytesOfWord rest (decodeWord_encode h)⟩

/-- Settles O2: the fields read from the word make the word again. -/
theorem encodeOfDecodeIsTheWord : Obligations.EncodeOfDecodeIsTheWord := by
  intro op i h
  have hgroup := decodeWord_eq_ok_iff.1 h
  exact ⟨wellFormed_of_decodeByGroup hgroup, encode_of_decodeByGroup hgroup⟩

/-- Settles O3: the decoder has no instruction for exactly the illegal words. -/
theorem decodeRejectsExactlyTheIllegalWords : Obligations.DecodeRejectsExactlyTheIllegalWords := by
  intro op
  rw [← decodeByGroup_eq_none_iff op]
  refine ⟨decodeWord_of_decodeByGroup_none, fun hlegal => ?_⟩
  obtain ⟨i, hi⟩ := Option.ne_none_iff_exists'.1 hlegal
  exact ⟨i, decodeWord_eq_ok_iff.2 hi⟩

/-- Settles O4: a row fixes what the decoder tests, and a word that decodes is its instruction's word, which matches the row. -/
theorem decodingAgreesWithTheOpcodeMap : Obligations.DecodingAgreesWithTheOpcodeMap := by
  refine fun op => ⟨fun r hr hmatch => ?decodes, fun i hi => ?matchesRow⟩
  case decodes =>
    obtain ⟨j, rfl⟩ := exists_opcodeRow_eq_of_mem hr
    obtain ⟨i, hi, hrow⟩ := exists_decodeByGroup_of_matchesWord j hmatch
    exact ⟨i, decodeWord_eq_ok_iff.2 hi, hrow⟩
  case matchesRow =>
    obtain ⟨hmatch, hmem⟩ := encodingMatchesRow i
    obtain ⟨-, hword⟩ := encodeOfDecodeIsTheWord op i hi
    exact ⟨hmem, hword ▸ hmatch⟩

/-- Settles O8: the fetch gives the word at `pc`, the decoder rejects it, and the tick takes that fault. -/
theorem illegalWordFaults : Obligations.IllegalWordFaults := by
  intro s hfault hpc op hillegal
  have hdecode : decodeByGroup op = none := (decodeByGroup_eq_none_iff op).2 hillegal
  have hfetch : s.fetchInstr = .error (.unimplementedOpcode op) := by
    simp only [s.fetchInstr_inside hpc, op, hdecode]
  exact tickBy_fetch_error hfault hfetch

/-- Settles O5: each word is computed. -/
theorem spelledOutWordsDecode : Obligations.SpelledOutWordsDecode := by
  unfold Obligations.SpelledOutWordsDecode
  decide

end Sys2Proof.Machine
end

section
/-! SUPPORT. The settling of the statements about the execution cycle (40_execution_cycle.md): what one tick does with its fetch
and its latch, then what every instruction leaves unchanged and which fault it can raise, as one case distinction over the
instructions; then the statements, assembled from them. -/

namespace Sys2Proof.Machine

/-! ### A tick, by what it fetches -/

theorem State.fetchInstr_of_decodeWord {s : State} {i : Instr} (hpc : s.pc.toNat ≤ 4094)
    (h : decodeWord (wordOfBytes (s.byteAt s.pc.toNat) (s.byteAt (s.pc.toNat + 1))) = .ok i) : s.fetchInstr = .ok i := by
  simp only [State.fetchInstr, s.fetchWord_inside hpc, h]

/-- Two executions that agree on the fetched instruction give the same tick. -/
theorem tickBy_congr {ex ex' : Instr → State → Host.Outcome State Fault Refusal} {s : State}
    (h : ∀ i, s.fetchInstr = .ok i → ex i s = ex' i s) : tickBy ex s = tickBy ex' s := by
  rcases tickBy_cases ex s with ⟨hlatched, hs⟩ | ⟨f, hfault, hfetch, hs⟩ | ⟨i, hfault, hfetch, hs⟩ <;> rw [hs]
  · exact (tickBy_latched hlatched).symm
  · exact (tickBy_fetch_error hfault hfetch).symm
  · rw [h i hfetch, tickBy_fetch_ok hfault hfetch]

/-! ### The registers an instruction names as written -/

section
variable {s : State} {x k : RegIdx}

theorem State.setReg_getElem_ne (b : Byte) (h : k ≠ x) : (s.setReg x b).v[k] = s.v[k] :=
  Vector.getElem_set_ne x.isLt k.isLt (Fin.val_ne_of_ne h.symm)

theorem State.setRegAndFlag_getElem_ne (b flag : Byte) (h : ¬ (k = x ∨ k = 15)) : (s.setRegAndFlag x b flag).v[k] = s.v[k] := by
  obtain ⟨hx, hflag⟩ := not_or.1 h
  exact (State.setReg_getElem_ne (s := s.setReg x b) flag hflag).trans (State.setReg_getElem_ne b hx)

/-- A register beyond the loaded bytes is kept (R209). -/
theorem State.setRegs_getElem_of_length_le {bs : List Byte} (h : bs.length ≤ k.val) : (s.setRegs bs).v[k] = s.v[k] := by
  simp [List.getElem?_eq_none h]

end

/-! ### What an instruction leaves unchanged, and the fault it can raise -/

/-- The frame of an instruction (R125): each piece of state but `pc` and `wait_key`, unless the instruction is one that writes it.
A clause not named where the structure is built holds because the field, or the whole record, is the same term. -/
structure KeepsUnwritten (i : Instr) (s t : State) : Prop where
  regs : ∀ k : RegIdx, ¬ writesReg i k → t.v[k] = s.v[k] := by intros; rfl
  index : (∀ nnn, i ≠ .ldINnn nnn) → (∀ x, i ≠ .addIVx x) → (∀ x, i ≠ .ldFVx x) → t.i = s.i := by intros; rfl
  stack : (∀ nnn, i ≠ .callNnn nnn) → t.stack = s.stack ∧ (i ≠ .ret → t.sp = s.sp) := by intros; exact ⟨rfl, fun _ => rfl⟩
  delay : (∀ x, i ≠ .ldDTVx x) → t.dt = s.dt := by intros; rfl
  sound : (∀ x, i ≠ .ldSTVx x) → t.st = s.st := by intros; rfl
  keys : t.key = s.key := by rfl
  display : i ≠ .cls → (∀ x y n, i ≠ .drwVxVyN x y n) → t.disp = s.disp := by intros; rfl
  memory : (∀ x, i ≠ .ldBVx x) → (∀ x, i ≠ .ldMemVx x) → ∀ a, t.byteAt a = s.byteAt a := by intros; rfl
  draws : (∀ x kk, i ≠ .rndVxKk x kk) → t.draws = s.draws := by intros; rfl
  font : t.font = s.font := by rfl

/-- An instruction that writes the registers it names, `pc` and `wait_key` at most. -/
theorem KeepsUnwritten.of_registers {i : Instr} {s t : State} (ht : t = { s with v := t.v, pc := t.pc, waitKey := t.waitKey })
    (hregs : ∀ k : RegIdx, ¬ writesReg i k → t.v[k] = s.v[k]) : KeepsUnwritten i s t := by
  rw [ht]
  exact { regs := hregs }

theorem KeepsUnwritten.of_skip {i : Instr} {s : State} (c : Bool) : KeepsUnwritten i s (s.advance.skipIf c) := by
  rw [State.skipIf_eq]
  exact {}

/-- The instructions that can raise a fault of each kind, and the info they record (R127, R260). -/
def Raises (i : Instr) : Fault → Prop
  | .stackUnderflow => i = .ret
  | .stackOverflow => ∃ nnn, i = .callNnn nnn
  | .invalidKeyIndex k => 15 < k ∧ ∃ x, i = .skpVx x ∨ i = .sknpVx x
  | .addressOutOfRange a => 4095 < a ∧ ((∃ x y n, i = .drwVxVyN x y n) ∨ ∃ x, i = .ldBVx x ∨ i = .ldMemVx x ∨ i = .ldVxMem x)
  | .unimplementedOpcode _ => False
  | .outOfRangeRomLoad _ => False

theorem raises_firstAddressOutside {i : Instr} (base : Word)
    (hi : (∃ x y n, i = .drwVxVyN x y n) ∨ ∃ x, i = .ldBVx x ∨ i = .ldMemVx x ∨ i = .ldVxMem x) :
    Raises i (.addressOutOfRange (firstAddressOutside base.toNat)) :=
  ⟨(firstAddressOutside_bounds base).1, hi⟩

/-- The two answers of an execution of `i` from `s`: it completes in its frame with the latch as it was, or it takes a fault of
its own. -/
inductive FramedOutcome (i : Instr) (s : State) : Host.Outcome State Fault Refusal → Prop
  | completes {t : State} (hkeeps : KeepsUnwritten i s t) (hlatch : t.fault = s.fault) : FramedOutcome i s (.next t)
  | faults {f : Fault} (hraises : Raises i f) : FramedOutcome i s (.next (s.takeFault f))

theorem exec_framed (i : Instr) (s : State) : FramedOutcome i s (exec i s) := by
  cases i
  case ret =>
    rw [execRet_eq]
    split
    · exact .faults rfl
    · exact .completes { stack := fun _ => ⟨rfl, fun h => absurd rfl h⟩ } rfl
  case callNnn nnn =>
    rw [execCallNnn_eq]
    split
    · exact .completes { stack := fun h => absurd rfl (h nnn) } rfl
    · exact .faults ⟨nnn, rfl⟩
  case ldBVx x =>
    rw [execLdBVx_eq]
    split
    · exact .completes { memory := fun h => absurd rfl (h x) } rfl
    · exact .faults (raises_firstAddressOutside s.i (.inr ⟨x, .inl rfl⟩))
  case ldMemVx x =>
    rw [execLdMemVx_eq]
    split
    · exact .completes { memory := fun _ h => absurd rfl (h x) } rfl
    · exact .faults (raises_firstAddressOutside s.i (.inr ⟨x, .inr (.inl rfl)⟩))
  case ldVxMem x =>
    rw [execLdVxMem_eq]
    split
    · refine .completes (.of_registers rfl fun k hk => ?_) rfl
      exact State.setRegs_getElem_of_length_le (by rw [State.spriteAt_length]; exact Nat.lt_of_not_le hk)
    · exact .faults (raises_firstAddressOutside s.i (.inr ⟨x, .inr (.inr rfl)⟩))
  case drwVxVyN x y n =>
    rw [execDrwVxVyN_eq]
    split
    · exact .completes { regs := fun _ hk => State.setReg_getElem_ne _ hk, display := fun _ h => absurd rfl (h x y n) } rfl
    · exact .faults (raises_firstAddressOutside s.i (.inl ⟨x, y, n, rfl⟩))
  case skpVx x =>
    rw [execSkpVx_eq]
    split
    · exact .completes (.of_skip _) (State.skipIf_fault _ _)
    · exact .faults ⟨(keyFault_bounds ‹_›).1, x, .inl rfl⟩
  case sknpVx x =>
    rw [execSknpVx_eq]
    split
    · exact .completes (.of_skip _) (State.skipIf_fault _ _)
    · exact .faults ⟨(keyFault_bounds ‹_›).1, x, .inr rfl⟩
  case ldVxK x =>
    rw [execLdVxK_eq]
    split
    · exact .completes (.of_registers rfl fun _ hk => State.setReg_getElem_ne _ hk) rfl
    · exact .completes {} rfl
  case seVxKk | sneVxKk | seVxVy | sneVxVy => exact .completes (.of_skip _) (State.skipIf_fault _ _)
  case jpNnn | jpV0Nnn => exact .completes {} rfl
  case ldVxKk | addVxKk | ldVxVy | orVxVy | andVxVy | xorVxVy | ldVxDT =>
    exact .completes (.of_registers rfl fun _ hk => State.setReg_getElem_ne _ hk) rfl
  case addVxVy | subVxVy | shrVxVy | subnVxVy | shlVxVy =>
    exact .completes (.of_registers rfl fun _ hk => State.setRegAndFlag_getElem_ne _ _ hk) rfl
  case rndVxKk x kk =>
    exact .completes { regs := fun _ hk => State.setReg_getElem_ne _ hk, draws := fun h => absurd rfl (h x kk) } rfl
  case cls => exact .completes { display := fun h => absurd rfl h } rfl
  case ldINnn nnn => exact .completes { index := fun h => absurd rfl (h nnn) } rfl
  case addIVx x => exact .completes { index := fun _ h => absurd rfl (h x) } rfl
  case ldFVx x => exact .completes { index := fun _ _ h => absurd rfl (h x) } rfl
  case ldDTVx x => exact .completes { delay := fun h => absurd rfl (h x) } rfl
  case ldSTVx x => exact .completes { sound := fun h => absurd rfl (h x) } rfl

/-- An execution keeps what its instruction does not write, also when it takes a fault, which changes nothing but the latch. -/
theorem FramedOutcome.keepsUnwritten {i : Instr} {s t : State} (h : FramedOutcome i s (.next t)) :
    KeepsUnwritten i s t ∧ (t.fault = s.fault ∨ t = { s with fault := t.fault }) := by
  cases h with
  | completes hkeeps hlatch => exact ⟨hkeeps, .inl hlatch⟩
  | faults _ => exact ⟨{}, .inr rfl⟩

/-- A fault that an execution latches is one its instruction can raise, and nothing else changes. -/
theorem FramedOutcome.of_latches {i : Instr} {s t : State} {r : FaultRecord} (h : FramedOutcome i s (.next t))
    (hfault : s.fault = none) (hlatched : t.fault = some r) :
    Raises i r.kind ∧ t = { s with fault := some r } ∧ r.faultPc = s.pc := by
  cases h with
  | completes _ hlatch => exact absurd (hlatched.symm.trans (hlatch.trans hfault)) (Option.some_ne_none r)
  | faults hraises =>
    cases hlatched
    exact ⟨hraises, rfl, rfl⟩

/-! ### The statements -/

/-- Settles O10: a fault is taken by the tick, for its fetch, or by the execution of its instruction. -/
theorem faultingTickIsVoid : Obligations.FaultingTickIsVoid := by
  intro s t r hfault ht hlatched
  rcases tickBy_cases exec s with ⟨hs, -⟩ | ⟨f, -, -, hs⟩ | ⟨i, -, -, hs⟩
  · exact absurd hfault hs
  · cases hs.symm.trans ht
    cases hlatched
    exact ⟨rfl, rfl⟩
  · have hframed := exec_framed i s
    rw [← hs, show tickBy exec s = .next t from ht] at hframed
    exact (hframed.of_latches hfault hlatched).2

/-- Settles O12: the kind latched is one the instruction can raise. -/
theorem eachInstructionRaisesOnlyItsOwnFault : Obligations.EachInstructionRaisesOnlyItsOwnFault := by
  intro i s t r hfault ht hlatched
  have hframed : FramedOutcome i s (.next t) := ht ▸ exec_framed i s
  exact (hframed.of_latches hfault hlatched).1

/-- Settles O13: the clauses of the frame, and the latch. -/
theorem frameOfEveryInstruction : Obligations.FrameOfEveryInstruction := by
  intro i s t ht
  have hframed : FramedOutcome i s (.next t) := ht ▸ exec_framed i s
  obtain ⟨⟨regs, index, stack, delay, sound, keys, display, memory, draws, font⟩, latch⟩ := hframed.keepsUnwritten
  exact ⟨regs, index, stack, delay, sound, keys, display, memory, draws, font, latch⟩

/-- Settles O15: the two executions differ on RND alone, and there in the counter of draws alone. -/
theorem onlyRndReadsTheEntropyByte : Obligations.OnlyRndReadsTheEntropyByte := by
  refine fun s => ⟨fun hnot rnd => ?notRnd, fun x kk t hfault hfetch ht => ?rnd⟩
  case notRnd =>
    refine tickBy_congr fun i hi => execWith_eq rnd i s fun x kk h => ?_
    exact hnot x kk (h ▸ hi)
  case rnd =>
    have hgiven : execRndWith (Config.entropy s.draws) x kk s = .next t := (tickBy_fetch_ok hfault hfetch).symm.trans ht
    have hfree : step s = exec (.rndVxKk x kk) s := tickBy_fetch_ok hfault hfetch
    rw [hfree, execRndVxKk_eq]
    cases hgiven
    rfl

/-- Settles O6: the fetch gives the instruction, whichever execution the tick runs. -/
theorem stepRunsTheDecodedInstruction : Obligations.StepRunsTheDecodedInstruction := by
  intro s i hfault hpc hdecode
  have hfetch : s.fetchInstr = .ok i := State.fetchInstr_of_decodeWord hpc hdecode
  exact ⟨tickBy_fetch_ok hfault hfetch, fun _ => tickBy_fetch_ok hfault hfetch⟩

/-- Settles O7: the lowest address outside memory is 4096 from 4095, and the pc itself from above. -/
theorem fetchOutsideMemoryFaults : Obligations.FetchOutsideMemoryFaults := by
  intro s hfault
  have htick (h : 4094 < s.pc.toNat) : step s = .next (s.takeFault (.addressOutOfRange (max s.pc.toNat 4096))) :=
    tickBy_fetch_error hfault (s.fetchInstr_outside h)
  refine ⟨fun hpc => ?last, fun hpc => ?above⟩
  case last => rw [htick (by omega), hpc]; rfl
  case above => rw [htick (by omega), Nat.max_eq_left hpc]; rfl

/-- Settles O9: a latched tick is the same state, from which the response reads the latch. -/
theorem latchedTickChangesNothing : Obligations.LatchedTickChangesNothing := by
  intro s r hr
  have hlatched : s.fault ≠ none := Option.ne_none_iff_exists'.2 ⟨r, hr⟩
  refine ⟨tickBy_latched hlatched, fun rnd => ?_⟩
  have htick : tickWith rnd s = .next s := tickBy_latched hlatched
  simp only [command, htick, tickResponse, hr]

/-- Settles O22: the jump puts back the pc it was fetched from, and `wait_key` has no part in the fetch. -/
theorem parkedCoreStaysParked : Obligations.ParkedCoreStaysParked := by
  rintro s ⟨hfault, hfetch⟩
  have hstep : step s = exec (.jpNnn s.pc) s := tickBy_fetch_ok hfault hfetch
  exact ⟨hstep.trans (execJpNnn_eq s.pc s), hfault, hfetch⟩

end Sys2Proof.Machine
end

section
/-! SUPPORT. The settling of the statements about one control-flow instruction (41_control_flow.md): where a skip and an indexed
jump leave `pc`; then the statements, from the case distinctions over the stack operations and the named updates. -/

namespace Sys2Proof.Machine

/-! ### Where a skip and an indexed jump leave `pc` -/

/-- A skip ends at `pc + 4` or `pc + 2`, counted from the instruction's own address (R143). -/
theorem State.skipIf_advance (c : Bool) (s : State) :
    s.advance.skipIf c = { s with pc := if c then s.pc + 4 else s.pc + 2, waitKey := false } := by
  have hword : s.pc + 2 + 2 = s.pc + 4 := BitVec.add_assoc s.pc 2 2
  cases c with
  | false => rfl
  | true => rw [State.skipIf_eq, State.advance_pc, hword]; rfl

/-- The sum of V0 and a 12-bit address fits in the pc without a carry (R148). -/
theorem indexedTarget_toNat (v0 : Byte) {nnn : Word} (h : nnn.toNat < 4096) :
    (indexedTarget v0 nnn).toNat = v0.toNat + nnn.toNat := by
  have hv0 := v0.isLt
  simp only [indexedTarget, BitVec.toNat_add, BitVec.toNat_setWidth]
  omega

/-! ### The statements -/

/-- Settles O16: RET is one case distinction on the empty stack. -/
theorem returnPopsOrFaults : Obligations.ReturnPopsOrFaults :=
  fun s => ⟨fun hempty => (execRet_eq s).trans (dif_pos hempty), fun hne => (execRet_eq s).trans (dif_neg hne)⟩

/-- Settles O17: a CALL that finds room writes the one slot at `sp`. -/
theorem callPushesOrFaults : Obligations.CallPushesOrFaults := by
  refine fun s nnn => ⟨fun hfull => ?full, fun hroom => ?room⟩
  case full => exact (execCallNnn_eq nnn s).trans (dif_neg (by omega))
  case room =>
    have htop : (s.called nnn hroom).stack[s.sp.val] = s.pc + 2 := Vector.getElem_set_self hroom
    have hothers (k : Fin 16) (hk : k.val ≠ s.sp.val) : (s.called nnn hroom).stack[k] = s.stack[k] :=
      Vector.getElem_set_ne hroom k.isLt hk.symm
    exact ⟨s.called nnn hroom, exec_call_room nnn hroom, rfl, rfl, rfl, htop, hothers, rfl, fun _ => rfl⟩

/-- Settles O20: both jumps set `pc` on the advanced state, the second one to the sum, which does not wrap. -/
theorem jumpsReplaceThePc : Obligations.JumpsReplaceThePc :=
  fun s nnn hnnn =>
    ⟨execJpNnn_eq nnn s, _, execJpV0Nnn_eq nnn s, indexedTarget_toNat s.v[0] hnnn, rfl, rfl, fun _ => rfl⟩

/-- Settles O21: the four skips differ in their condition alone, and SNE's is SE's negated. -/
theorem skipsPassOverOneWord : Obligations.SkipsPassOverOneWord := by
  refine fun s x y kk => ⟨?seByte, ?sneByte, ?seReg, ?sneReg⟩
  case seByte => simp only [execSeVxKk_eq, State.skipIf_advance, beq_iff_eq]
  case sneByte => simp only [execSneVxKk_eq, State.skipIf_advance, bne_iff_ne, ite_not]
  case seReg => simp only [execSeVxVy_eq, State.skipIf_advance, beq_iff_eq]
  case sneReg => simp only [execSneVxVy_eq, State.skipIf_advance, bne_iff_ne, ite_not]

end Sys2Proof.Machine
end

section
/-! SUPPORT. The settling of the statements about the register and arithmetic instructions (42_alu.md): what the register written
reads as, the value of each result and each flag as numbers, the collision read off the display; then the statements, assembled
from them. -/

namespace Sys2Proof.Machine

/-! ### What the written registers read as -/

section
variable (s : State) (x : RegIdx)

theorem State.setReg_getElem_self (b : Byte) : (s.setReg x b).v[x] = b :=
  Vector.getElem_set_self x.isLt

/-- The result is kept unless the flag overwrites it (R129). -/
theorem State.setRegAndFlag_getElem_self (b flag : Byte) (h : x ≠ 15) : (s.setRegAndFlag x b flag).v[x] = b :=
  (State.setReg_getElem_ne (s := s.setReg x b) flag h).trans (s.setReg_getElem_self x b)

/-- The flag is written last, so VF holds it whatever the destination (R129). -/
theorem State.setRegAndFlag_getElem_flag (b flag : Byte) : (s.setRegAndFlag x b flag).v[15] = flag :=
  (s.setReg x b).setReg_getElem_self 15 flag

end

/-! ### Results and flags as numbers (R177, R179 to R183) -/

section
variable (a b : Byte)

/-- A difference modulo 256, with the borrow written out (R180, R182). -/
theorem toNat_sub_eq_ite : (a - b).toNat = if a.toNat < b.toNat then a.toNat + 256 - b.toNat else a.toNat - b.toNat := by
  split <;> bv_omega

theorem toNat_ushiftRight_one : (a >>> 1).toNat = a.toNat / 2 := by
  rw [BitVec.toNat_ushiftRight, Nat.shiftRight_eq_div_pow, pow_one]

theorem toNat_shiftLeft_one : (a <<< 1).toNat = a.toNat * 2 % 256 := by
  rw [BitVec.toNat_shiftLeft, Nat.shiftLeft_eq, pow_one]

theorem carryFlag_toNat : (carryFlag a b).toNat = if a.toNat + b.toNat > 255 then 1 else 0 := by
  simp only [carryFlag, flagByte_toNat, decide_eq_true_eq, gt_iff_lt]

theorem noBorrowFlag_toNat : (noBorrowFlag a b).toNat = if a.toNat ≥ b.toNat then 1 else 0 := by
  simp only [noBorrowFlag, flagByte_toNat, decide_eq_true_eq, ge_iff_le]

theorem shiftedRightFlag_toNat : (shiftedRightFlag a).toNat = if a.getLsbD 0 then 1 else 0 :=
  flagByte_toNat (a.getLsbD 0)

theorem shiftedLeftFlag_toNat : (shiftedLeftFlag a).toNat = if a.getLsbD 7 then 1 else 0 :=
  flagByte_toNat (a.getLsbD 7)

theorem shiftedRightFlag_toNat_eq_mod : (shiftedRightFlag a).toNat = a.toNat % 2 := by
  rw [shiftedRightFlag_toNat, BitVec.getLsbD, Nat.testBit_zero]
  simp only [decide_eq_true_eq]
  split <;> omega

theorem shiftedLeftFlag_toNat_eq_div : (shiftedLeftFlag a).toNat = a.toNat / 128 := by
  have := a.isLt
  rw [shiftedLeftFlag_toNat, BitVec.getLsbD, Nat.testBit_eq_decide_div_mod_eq]
  simp only [decide_eq_true_eq]
  split <;> omega

end

/-! ### An instruction that ends in the write of a result and then a flag -/

section
variable {i : Instr} {s : State} {x : RegIdx} {b flag : Byte}
  (hexec : exec i s = .next (s.advance.setRegAndFlag x b flag))
include hexec

theorem givesResultAndFlag_of_exec {result flagValue : Nat} (hresult : b.toNat = result) (hflag : flag.toNat = flagValue) :
    GivesResultAndFlag i s x result flagValue := by
  refine ⟨_, hexec, fun hx => ?_, ?_, fun k hx hk => ?_, ⟨rfl, rfl⟩, rfl, fun _ => rfl⟩
  · rw [State.setRegAndFlag_getElem_self _ _ _ _ hx, hresult]
  · rw [State.setRegAndFlag_getElem_flag, hflag]
  · exact State.setRegAndFlag_getElem_ne b flag (not_or.2 ⟨hx, hk⟩)

theorem flag_of_exec {t : State} (ht : exec i s = .next t) : t.v[15] = flag := by
  cases hexec.symm.trans ht
  exact State.setRegAndFlag_getElem_flag _ _ _ _

end

/-! ### The collision read off the display (R223) -/

/-- A pixel is turned off where a set sprite bit maps to it and it was set, so the collision is that some pixel is. -/
theorem drawSprite_collision_iff_pixel_turned_off (vx vy : Nat) (sprite : List Byte) (d : Display) (h : sprite.length ≤ 32) :
    (drawSprite vx vy sprite d).collision = true ↔
      ∃ px py, Display.pixel d px py = true ∧ Display.pixel (drawSprite vx vy sprite d).disp px py = false := by
  rw [drawSprite_collision vx vy sprite d h]
  refine exists_congr fun px => exists_congr fun py => ?_
  rw [drawSprite_pixel vx vy sprite d px py h, and_comm]
  refine and_congr_right fun hset => ?_
  rw [hset, Bool.true_xor, Bool.not_eq_false']

/-- VF after a DRW that does not fault (R222, R223). -/
theorem flag_of_exec_drw {s t : State} {x y : RegIdx} {n : Nat} (hn : n < 16)
    (hexec : exec (.drwVxVyN x y n) s = .next t) (hfault : t.fault = none) :
    ∃ collision, t.v[15] = flagByte collision ∧
      (collision = true ↔ ∃ px py, Display.pixel s.disp px py = true ∧ Display.pixel t.disp px py = false) := by
  rw [execDrwVxVyN_eq] at hexec
  split at hexec
  · cases hexec
    exact ⟨_, s.setReg_getElem_self 15 _,
      drawSprite_collision_iff_pixel_turned_off _ _ _ _ (by rw [State.spriteAt_length]; omega)⟩
  · cases hexec
    cases hfault

/-! ### The statements -/

/-- Settles O24: each of the five ends in the write of a result and then a flag, whose values are the numbers of R179 to R183. -/
theorem flagWritingArithmetic : Obligations.FlagWritingArithmetic := by
  refine fun s x y => ⟨?add, ?sub, ?shr, ?subn, ?shl⟩
  case add => exact givesResultAndFlag_of_exec (execAddVxVy_eq x y s) (BitVec.toNat_add _ _) (carryFlag_toNat _ _)
  case sub => exact givesResultAndFlag_of_exec (execSubVxVy_eq x y s) (toNat_sub_eq_ite _ _) (noBorrowFlag_toNat _ _)
  case shr =>
    exact givesResultAndFlag_of_exec (execShrVxVy_eq x y s) (toNat_ushiftRight_one _) (shiftedRightFlag_toNat_eq_mod _)
  case subn => exact givesResultAndFlag_of_exec (execSubnVxVy_eq x y s) (toNat_sub_eq_ite _ _) (noBorrowFlag_toNat _ _)
  case shl =>
    exact givesResultAndFlag_of_exec (execShlVxVy_eq x y s) (toNat_shiftLeft_one _) (shiftedLeftFlag_toNat_eq_div _)

/-- Settles O25: the five arithmetic instructions write their flag last, and DRW's flag is the collision. -/
theorem flagsAreCarryBorrowShiftAndCollision : Obligations.FlagsAreCarryBorrowShiftAndCollision := by
  refine fun s t x y => ⟨fun h => ?add, fun h => ?sub, fun h => ?subn, fun h => ?shr, fun h => ?shl,
    fun n hn _ h hfault => ?drw⟩
  case add => rw [flag_of_exec (execAddVxVy_eq x y s) h, carryFlag_toNat]
  case sub => rw [flag_of_exec (execSubVxVy_eq x y s) h, noBorrowFlag_toNat]
  case subn => rw [flag_of_exec (execSubnVxVy_eq x y s) h, noBorrowFlag_toNat]
  case shr => rw [flag_of_exec (execShrVxVy_eq x y s) h, shiftedRightFlag_toNat]
  case shl => rw [flag_of_exec (execShlVxVy_eq x y s) h, shiftedLeftFlag_toNat]
  case drw =>
    obtain ⟨collision, hflag, hcollision⟩ := flag_of_exec_drw hn h hfault
    rw [hflag, flagByte_toNat, ← hcollision]
    exact ⟨fun hc => if_pos hc, fun hc => if_neg hc⟩

/-- Settles O23: each is one register write on the advanced state. -/
theorem plainRegisterWrites : Obligations.PlainRegisterWrites := by
  refine fun s x y kk => ⟨execLdVxKk_eq x kk s, ?addByte, execLdVxVy_eq x y s, execOrVxVy_eq x y s, execAndVxVy_eq x y s,
    execXorVxVy_eq x y s⟩
  refine ⟨_, execAddVxKk_eq x kk s, ?_, fun k hk => State.setReg_getElem_ne _ hk, ⟨rfl, rfl⟩, rfl, fun _ => rfl⟩
  rw [State.setReg_getElem_self]
  exact BitVec.toNat_add _ _

/-- Settles O26: a bit of the masked byte is the bit of the draw and the bit of the mask. -/
theorem randomByteIsMasked : Obligations.RandomByteIsMasked := by
  intro s x kk rnd
  have hvalue (b : Byte) : (s.advance.setReg x b).v[x] = b := s.advance.setReg_getElem_self x b
  refine ⟨rfl, _, execRndVxKk_eq x kk s, hvalue _, rfl, fun k hk => ?maskedBit,
    fun k hk => State.setReg_getElem_ne _ hk, ⟨rfl, rfl⟩, rfl, fun _ => rfl⟩
  rw [hvalue, BitVec.getLsbD_and, hk, Bool.and_false]

end Sys2Proof.Machine
end

section
/-! SUPPORT. The settling of the statements about the index register and memory (43_index_memory.md): the values written to `I`, the
frame of a store, the registers after a load; then the statements, assembled from them and from the case distinctions over the
bounds of memory. -/

namespace Sys2Proof.Machine

/-! ### The values written to `I` -/

theorem indexSum_toNat (i : Word) (vx : Byte) : (indexSum i vx).toNat = (i.toNat + vx.toNat) % 65536 := by
  have hfits : vx.toNat % 2 ^ 16 = vx.toNat := Nat.mod_eq_of_lt (vx.isLt.trans (by decide))
  rw [indexSum, BitVec.toNat_add, BitVec.toNat_setWidth, hfits]

/-- A glyph address is at most 75, so it fits in `I` (R203). -/
theorem glyphAddress_toNat (vx : Byte) : (glyphAddress vx).toNat = vx.toNat % 16 * 5 := by
  have hlow : (vx &&& 0x0F#8).toNat = vx.toNat % 16 :=
    (BitVec.toNat_and vx 0x0F#8).trans (Nat.and_two_pow_sub_one_eq_mod vx.toNat 4)
  rw [glyphAddress, BitVec.toNat_ofNat, hlow, Config.glyphBytes]
  omega

/-! ### A store that stays inside memory -/

theorem eq_of_exec_ldBVx {s t : State} {x : RegIdx} (hin : s.i.toNat + 2 ≤ 4095) (hexec : exec (.ldBVx x) s = .next t) :
    t = { s.advance with mem := Memory.writeList s.font s.mem s.i.toNat (bcdDigits s.v[x]) } := by
  rw [execLdBVx_eq, if_pos hin] at hexec
  exact (Host.Outcome.next.inj hexec).symm

section
variable {s t : State} {base : Nat} {bs : List Byte} (ht : t = { s.advance with mem := Memory.writeList s.font s.mem base bs })
include ht

theorem advancesPc_of_store : AdvancesPc s t := by
  rw [ht]
  exact ⟨rfl, rfl⟩

variable (hwf : Memory.wf s.font s.mem = true) (hin : base + bs.length ≤ 4096)
include hwf hin

theorem byteAt_of_store {k : Nat} (hk : k < bs.length) : t.byteAt (base + k) = bs[k] := by
  rw [ht]
  exact Memory.read_writeList_inside hwf hin hk

theorem keepsAllButBytes_of_store : KeepsAllButBytes base bs.length s t := by
  rw [ht]
  exact ⟨rfl, fun _ ha => Memory.read_writeList_outside hwf hin ha⟩

end

/-! ### A load that stays inside memory -/

section
variable {s : State} {x k : RegIdx}

theorem State.setRegs_getElem_of_lt_length {bs : List Byte} (h : k.val < bs.length) : (s.setRegs bs).v[k] = bs[k.val] := by
  simp [List.getElem?_eq_getElem h]

/-- The registers after a load of V0 to Vx from the memory and `I` of `s` (R207, R209). -/
theorem State.setRegs_spriteAt_getElem (u : State) :
    (u.setRegs (s.spriteAt (x.val + 1))).v[k] = if k.val ≤ x.val then s.byteAt (s.i.toNat + k.val) else u.v[k] := by
  have hlen : (s.spriteAt (x.val + 1)).length = x.val + 1 := s.spriteAt_length (x.val + 1)
  split
  case isTrue hk =>
    rw [State.setRegs_getElem_of_lt_length (by omega)]
    simp [State.spriteAt]
  case isFalse hk => exact State.setRegs_getElem_of_length_le (by omega)

end

/-! ### The statements -/

/-- Settles O27: each is one write of `I` on the advanced state. -/
theorem indexRegisterWrites : Obligations.IndexRegisterWrites :=
  fun s x nnn =>
    ⟨execLdINnn_eq nnn s,
      ⟨_, execAddIVx_eq x s, indexSum_toNat s.i s.v[x], ⟨rfl, rfl⟩, rfl, fun _ => rfl⟩,
      ⟨_, execLdFVx_eq x s, glyphAddress_toNat s.v[x], ⟨rfl, rfl⟩, rfl, fun _ => rfl⟩⟩

/-- Settles O28: the three digits are written where `I + 2` is inside memory, and each reads back from its address. -/
theorem bcdStoreWritesThreeDigits : Obligations.BcdStoreWritesThreeDigits := by
  refine fun s x hwf => ⟨fun hin => ?inside, fun hout => (execLdBVx_eq x s).trans (if_neg (Nat.not_le.mpr hout))⟩
  case inside =>
    obtain ⟨t, hexec⟩ := exec_answers (.ldBVx x) s
    have ht := eq_of_exec_ldBVx hin hexec
    have hfits : s.i.toNat + (bcdDigits s.v[x]).length ≤ 4096 := by rw [bcdDigits_length]; omega
    have hdigit (k : Nat) (hk : k < 3) := congrArg BitVec.toNat (byteAt_of_store ht hwf hfits hk)
    obtain ⟨hvalue0, hvalue1, hvalue2⟩ := bcdDigits_value s.v[x]
    have hhundreds : (t.byteAt s.i.toNat).toNat = s.v[x].toNat / 100 := (hdigit 0 (by decide)).trans hvalue0
    have htens : (t.byteAt (s.i.toNat + 1)).toNat = s.v[x].toNat / 10 % 10 := (hdigit 1 (by decide)).trans hvalue1
    have hones : (t.byteAt (s.i.toNat + 2)).toNat = s.v[x].toNat % 10 := (hdigit 2 (by decide)).trans hvalue2
    exact ⟨t, hexec, hhundreds, htens, hones, by omega, advancesPc_of_store ht, keepsAllButBytes_of_store ht hwf hfits⟩

/-- Settles O29: the registers are written where `I + x` is inside memory, and each reads back from its address. -/
theorem registerDumpStoresV0ToVx : Obligations.RegisterDumpStoresV0ToVx := by
  refine fun s x hwf => ⟨fun hin => ?inside, fun hout => (execLdMemVx_eq x s).trans (if_neg (Nat.not_le.mpr hout))⟩
  case inside =>
    obtain ⟨t, hexec⟩ := exec_answers (.ldMemVx x) s
    have ht := eq_of_exec_ldMemVx hin hexec
    have hlen : (s.regsUpTo x).length = x.val + 1 := s.regsUpTo_length x
    have hframe := keepsAllButBytes_of_store ht hwf (by omega)
    rw [hlen] at hframe
    exact ⟨t, hexec, fun _ hk => byteAt_of_exec_ldMemVx hin hexec hwf hk, advancesPc_of_store ht, hframe⟩

/-- Settles O30: the registers are loaded where `I + x` is inside memory. -/
theorem registerLoadReadsV0ToVx : Obligations.RegisterLoadReadsV0ToVx :=
  fun s x =>
    ⟨fun hin => ⟨_, (execLdVxMem_eq x s).trans (if_pos hin),
        fun _ hk => (State.setRegs_spriteAt_getElem s.advance).trans (if_pos hk),
        fun _ hk => (State.setRegs_spriteAt_getElem s.advance).trans (if_neg (Nat.not_le.mpr hk)),
        ⟨rfl, rfl⟩, rfl, fun _ => rfl⟩,
      fun hout => (execLdVxMem_eq x s).trans (if_neg (Nat.not_le.mpr hout))⟩

/-- Settles O31: the dump keeps `I`, so the load reads the addresses the dump wrote. -/
theorem dumpThenLoadRestoresTheRegisters : Obligations.DumpThenLoadRestoresTheRegisters := by
  intro s t x v hwf hin hdump
  have hi : t.i = s.i := by rw [eq_of_exec_ldMemVx hin hdump]; rfl
  have hload := (execLdVxMem_eq x { t with v := v }).trans (if_pos (show t.i.toNat + x.val ≤ 4095 by rwa [hi]))
  refine ⟨_, hload, hi, fun k => (State.setRegs_spriteAt_getElem _).trans ?_⟩
  refine if_ctx_congr Iff.rfl (fun hk => ?loaded) fun _ => rfl
  case loaded =>
    change t.byteAt (t.i.toNat + k.val) = s.v[k]
    rw [hi]
    exact byteAt_of_exec_ldMemVx hin hdump hwf hk

end Sys2Proof.Machine
end

section
/-! SUPPORT. The settling of the statements about the display (44_display.md): what DRW draws with its rows inside memory and that
it draws nothing otherwise, as one pixel rule and one flag rule over its execution; then the statements, assembled from them. -/

namespace Sys2Proof.Machine

/-! ### The flag byte of a decided proposition -/

/-- A flag that is set exactly when `p` holds, as the byte 1 or 0. -/
theorem flagByte_of_iff {c : Bool} {p : Prop} (h : c = true ↔ p) : (p → flagByte c = 1) ∧ (¬ p → flagByte c = 0) :=
  ⟨fun hp => by rw [h.2 hp]; rfl, fun hp => by rw [Bool.eq_false_iff.2 (mt h.1 hp)]; rfl⟩

/-! ### The sprite DRW draws -/

/-- What DRW Vx, Vy, n draws from `s` when its rows are inside memory (R222). -/
def State.drawing (s : State) (x y : RegIdx) (n : Nat) : Drawing :=
  drawSprite (s.v[x]).toNat (s.v[y]).toNat (s.spriteAt n) s.disp

/-- The bit of the sprite of DRW Vx, Vy, n that maps to a display pixel (R221). -/
def State.drawnBit (s : State) (x y : RegIdx) (n : Nat) (px : Fin 64) (py : Fin 32) : Bool :=
  spriteBit (s.v[x]).toNat (s.v[y]).toNat (s.spriteAt n) px py

section
variable {s s' t : State} {x y : RegIdx} {n : Nat}

/-- The drawn sprite is determined by the coordinates and the bytes of the sprite. -/
theorem State.drawnBit_congr (hx : s'.v[x] = s.v[x]) (hy : s'.v[y] = s.v[y]) (hsprite : s'.spriteAt n = s.spriteAt n) :
    s'.drawnBit x y n = s.drawnBit x y n := by
  funext px py
  rw [State.drawnBit, State.drawnBit, hx, hy, hsprite]

/-- The sprite of a DRW, at most 15 rows high, is no higher than the display, so no row meets another. -/
theorem State.spriteAt_length_le (s : State) (hn : n < 16) : (s.spriteAt n).length ≤ 32 := by
  rw [State.spriteAt_length]
  omega

theorem State.drawing_pixel (hn : n < 16) (px : Fin 64) (py : Fin 32) :
    Display.pixel (s.drawing x y n).disp px py = (Display.pixel s.disp px py ^^ s.drawnBit x y n px py) :=
  drawSprite_pixel _ _ _ _ px py (s.spriteAt_length_le hn)

theorem State.drawing_collision (hn : n < 16) :
    (s.drawing x y n).collision = true ↔ ∃ px py, s.drawnBit x y n px py = true ∧ Display.pixel s.disp px py = true :=
  drawSprite_collision _ _ _ _ (s.spriteAt_length_le hn)

/-! ### One execution of DRW -/

theorem exec_drw_inside (hin : n = 0 ∨ s.i.toNat + n ≤ 4096) : exec (.drwVxVyN x y n) s = .next
    { s.advance with disp := (s.drawing x y n).disp, v := s.v.set 15 (flagByte (s.drawing x y n).collision) } :=
  (execDrwVxVyN_eq x y n s).trans (if_pos hin)

theorem exec_drw_outside (hout : ¬ (n = 0 ∨ s.i.toNat + n ≤ 4096)) :
    exec (.drwVxVyN x y n) s = .next (s.takeFault (.addressOutOfRange (firstAddressOutside s.i.toNat))) :=
  (execDrwVxVyN_eq x y n s).trans (if_neg hout)

/-- Every pixel after a DRW: toggled where a sprite bit maps to it, if the rows are inside memory (R224), and kept if DRW faults. -/
theorem pixel_of_exec_drw (hn : n < 16) (hexec : exec (.drwVxVyN x y n) s = .next t) (px : Fin 64) (py : Fin 32) :
    Display.pixel t.disp px py =
      (Display.pixel s.disp px py ^^ (decide (n = 0 ∨ s.i.toNat + n ≤ 4096) && s.drawnBit x y n px py)) := by
  by_cases hin : n = 0 ∨ s.i.toNat + n ≤ 4096
  · cases (exec_drw_inside hin).symm.trans hexec
    rw [decide_eq_true hin, Bool.true_and]
    exact State.drawing_pixel hn px py
  · cases (exec_drw_outside hin).symm.trans hexec
    rw [decide_eq_false hin, Bool.false_and, Bool.xor_false]
    rfl

/-- VF after a DRW with its rows inside memory is the collision (R223). -/
theorem flag_of_exec_drw_inside (hin : n = 0 ∨ s.i.toNat + n ≤ 4096) (hexec : exec (.drwVxVyN x y n) s = .next t) :
    t.v[15] = flagByte (s.drawing x y n).collision := by
  cases (exec_drw_inside hin).symm.trans hexec
  exact s.setReg_getElem_self 15 _

/-- A set bit meets a set pixel of the second draw exactly where it met a clear pixel of the first (R227). -/
theorem State.drawing_collision_of_second (hn : n < 16) (hin : n = 0 ∨ s.i.toNat + n ≤ 4096)
    (hexec : exec (.drwVxVyN x y n) s = .next t) (hdisp : s'.disp = t.disp) (hbit : s'.drawnBit x y n = s.drawnBit x y n) :
    (s'.drawing x y n).collision = true ↔
      ∃ px py, s.drawnBit x y n px py = true ∧ Display.pixel s.disp px py = false := by
  rw [State.drawing_collision hn]
  refine exists_congr fun px => exists_congr fun py => ?_
  rw [hbit, hdisp, pixel_of_exec_drw hn hexec, decide_eq_true hin, Bool.true_and]
  refine and_congr_right fun hset => ?_
  rw [hset, Bool.xor_true, Bool.not_eq_true']

end

/-! ### The statements -/

/-- Settles O34: the drawing's pixel and collision rules, and the record update that DRW answers. -/
theorem drawXorsTheSprite : Obligations.DrawXorsTheSprite := by
  intro s x y n hn hin
  have hexec := exec_drw_inside (x := x) (y := y) hin
  obtain ⟨hset, hclear⟩ := flagByte_of_iff (State.drawing_collision (s := s) (x := x) (y := y) hn)
  have hflag := flag_of_exec_drw_inside hin hexec
  exact ⟨_, hexec, State.drawing_pixel hn, fun h => hflag.trans (hset h), fun h => hflag.trans (hclear h), ⟨rfl, rfl⟩, rfl,
    fun _ hk => State.setReg_getElem_ne (s := s) _ hk, fun _ => rfl⟩

/-- Settles O36: the second draw toggles the pixels the first one toggled, or both toggle none. -/
theorem drawingTwiceRestoresTheDisplay : Obligations.DrawingTwiceRestoresTheDisplay := by
  intro s t s' u x y n hn hfirst hdisp hi hx hy hsprite hsecond
  refine Display.ext_pixel fun px py => ?_
  rw [pixel_of_exec_drw hn hsecond, State.drawnBit_congr hx hy hsprite, hi, hdisp, pixel_of_exec_drw hn hfirst, Bool.xor_assoc,
    Bool.xor_self, Bool.xor_false]

/-- Settles O37: VF after the second draw is its collision, read off the display before the first. -/
theorem secondDrawCollidesWhereTheFirstDrewOnClear : Obligations.SecondDrawCollidesWhereTheFirstDrewOnClear := by
  intro s t s' u x y n hn hin hfirst hdisp hi hx hy hsprite hsecond
  have hbit := State.drawnBit_congr hx hy hsprite
  obtain ⟨hset, hclear⟩ := flagByte_of_iff (State.drawing_collision_of_second hn hin hfirst hdisp hbit)
  have hflag := flag_of_exec_drw_inside (s := s') (by rwa [hi]) hsecond
  exact ⟨fun h => hflag.trans (hset h), fun h => hflag.trans (hclear h)⟩

/-- Settles O33: CLS replaces the display by the clear one. -/
theorem clearScreenClearsEveryPixel : Obligations.ClearScreenClearsEveryPixel :=
  fun s => ⟨_, execCls_eq s, Display.pixel_clear, ⟨rfl, rfl⟩, rfl, fun _ => rfl⟩

/-- Settles O35: a row outside memory is the faulting case of DRW. -/
theorem drawOutsideMemoryFaults : Obligations.DrawOutsideMemoryFaults :=
  fun _ _ _ _ hn hout => exec_drw_outside (not_or.2 ⟨hn, Nat.not_le.2 hout⟩)

end Sys2Proof.Machine
end

section
/-! SUPPORT. The settling of the statements about keys and timers (45_keys_timers.md): what a tick, a `keypress` and a `load` do to
the two timers; then the statements, from the case distinctions over the key operands and the named updates. -/

namespace Sys2Proof.Machine

/-! ### What a tick does to the timers -/

/-- A tick given its entropy byte stays in the frame of its instruction: RND too only writes its register. -/
theorem execWith_framed (rnd : Byte) (i : Instr) (s : State) : FramedOutcome i s (execWith rnd i s) := by
  by_cases hi : ∃ x kk, i = .rndVxKk x kk
  · obtain ⟨x, kk, rfl⟩ := hi
    exact .completes (.of_registers rfl fun _ hk => State.setReg_getElem_ne _ hk) rfl
  · rw [execWith_eq rnd i s fun x kk h => hi ⟨x, kk, h⟩]
    exact exec_framed i s

section
variable {rnd : Byte} {s t : State}

theorem dt_of_execWith {i : Instr} (h : execWith rnd i s = .next t) :
    t.dt = s.dt ∨ ∃ x, i = .ldDTVx x ∧ t.dt = s.v[x] := by
  by_cases hi : ∃ x, i = .ldDTVx x
  · obtain ⟨x, rfl⟩ := hi
    cases h
    exact .inr ⟨x, rfl, rfl⟩
  · have hframed : FramedOutcome i s (.next t) := h ▸ execWith_framed rnd i s
    exact .inl (hframed.keepsUnwritten.1.delay (not_exists.1 hi))

theorem st_of_execWith {i : Instr} (h : execWith rnd i s = .next t) :
    t.st = s.st ∨ ∃ x, i = .ldSTVx x ∧ t.st = s.v[x] := by
  by_cases hi : ∃ x, i = .ldSTVx x
  · obtain ⟨x, rfl⟩ := hi
    cases h
    exact .inr ⟨x, rfl, rfl⟩
  · have hframed : FramedOutcome i s (.next t) := h ▸ execWith_framed rnd i s
    exact .inl (hframed.keepsUnwritten.1.sound (not_exists.1 hi))

/-- A tick writes a timer only by executing the timer's instruction: a latched tick and a taken fault write none (R126, R128). -/
theorem timers_of_tick (h : tickBy (execWith rnd) s = .next t) :
    (t.dt = s.dt ∨ ∃ x, s.fetchInstr = .ok (.ldDTVx x) ∧ t.dt = s.v[x]) ∧
    (t.st = s.st ∨ ∃ x, s.fetchInstr = .ok (.ldSTVx x) ∧ t.st = s.v[x]) := by
  rcases tickBy_cases (execWith rnd) s with ⟨-, hs⟩ | ⟨f, -, -, hs⟩ | ⟨i, -, hfetch, hs⟩
  · cases hs.symm.trans h
    exact ⟨.inl rfl, .inl rfl⟩
  · cases hs.symm.trans h
    exact ⟨.inl rfl, .inl rfl⟩
  · have hexec : execWith rnd i s = .next t := hs.symm.trans h
    refine ⟨(dt_of_execWith hexec).imp_right ?_, (st_of_execWith hexec).imp_right ?_⟩
    all_goals
      rintro ⟨x, rfl, hx⟩
      exact ⟨x, hfetch, hx⟩

end

/-! ### The frames of `keypress` and `load` -/

/-- `keypress` changes the key latch at most (R276). -/
theorem State.keypress_frame (index : Nat) (pressed : Bool) (s : State) :
    (s.keypress index pressed).1 = { s with key := (s.keypress index pressed).1.key } := by
  unfold State.keypress
  split <;> rfl

/-- `load` changes memory at most (R72). -/
theorem State.load_frame (bytes : List Byte) (s : State) : (s.load bytes).1 = { s with mem := (s.load bytes).1.mem } := by
  unfold State.load
  split <;> rfl

/-! ### The statements -/

/-- Settles O43, command by command: of the commands that are no named writer, only a tick can change a timer. -/
theorem timersChangeOnlyByTheirWriters : Obligations.TimersChangeOnlyByTheirWriters := by
  refine ⟨fun c s t response hc => ?writers, fun s t response hc => ?frame⟩
  case frame =>
    cases hc
    rfl
  case writers =>
    cases c with
    | tick rnd =>
      obtain ⟨hdt, hst⟩ := timers_of_tick (command_tick_next hc)
      refine ⟨fun hne => .inr (.inr ?_), fun hne => .inr (.inr ?_)⟩
      · obtain ⟨x, hfetch, hx⟩ := hdt.resolve_left hne
        exact ⟨rnd, x, rfl, hfetch, hx⟩
      · obtain ⟨x, hfetch, hx⟩ := hst.resolve_left hne
        exact ⟨rnd, x, rfl, hfetch, hx⟩
    | tickTimer => exact ⟨fun _ => .inl rfl, fun _ => .inl rfl⟩
    | reset => exact ⟨fun _ => .inr (.inl rfl), fun _ => .inr (.inl rfl)⟩
    | keypress index pressed =>
      obtain rfl : (s.keypress index pressed).1 = t := congrArg Prod.fst (Host.Outcome.next.inj hc)
      rw [s.keypress_frame index pressed]
      exact ⟨absurd rfl, absurd rfl⟩
    | load bytes =>
      obtain rfl : (s.load bytes).1 = t := congrArg Prod.fst (Host.Outcome.next.inj hc)
      rw [s.load_frame bytes]
      exact ⟨absurd rfl, absurd rfl⟩
    | getDisplay | observe =>
      cases hc
      exact ⟨absurd rfl, absurd rfl⟩

/-- Settles O39: both skips are one case distinction on the key index, and SKNP's condition is SKP's negated. -/
theorem keySkipsTestTheNamedKey : Obligations.KeySkipsTestTheNamedKey := by
  refine fun s x => ⟨fun hkey => ⟨?skp, ?sknp⟩, fun hlarge => ?fault⟩
  case skp => rw [execSkpVx_eq, dif_pos hkey, State.skipIf_advance]
  case sknp =>
    rw [execSknpVx_eq, dif_pos hkey, State.skipIf_advance]
    simp only [Bool.not_eq_true', ← Bool.not_eq_true, ite_not]
  case fault =>
    have hnokey : ¬ (s.v[x]).toNat < 16 := Nat.not_lt.2 hlarge
    exact ⟨(execSkpVx_eq x s).trans (dif_neg hnokey), (execSknpVx_eq x s).trans (dif_neg hnokey)⟩

/-- Settles O40: one named update of the advanced state each. -/
theorem timerInstructionsMoveOneByte : Obligations.TimerInstructionsMoveOneByte :=
  fun s x => ⟨execLdVxDT_eq x s, execLdDTVx_eq x s, execLdSTVx_eq x s⟩

/-- Settles O41: the wait is one case distinction on the lowest pressed key, and a fruitless one takes the advance of `pc` back. -/
theorem keyWaitTakesTheLowestKey : Obligations.KeyWaitTakesTheLowestKey := by
  refine fun s x => ⟨fun k hpressed hlowest => ?found, fun hnone => ?waits⟩
  case found =>
    rw [execLdVxK_eq, (lowestKey_eq_some s.key k).2 ⟨hpressed, hlowest⟩]
    rfl
  case waits =>
    rw [execLdVxK_eq, (lowestKey_eq_none s.key).2 hnone, BitVec.add_sub_cancel]
    rfl

end Sys2Proof.Machine
end

section
/-! SUPPORT. The settling of the statements about the host commands (60_exceptions.md): what a tick and a `keypress` do to the key
latch and what a press and a release come to, the run of one more command, the expiry report as a number, and the observed memory;
then the statements, from these and the laws of the timers and the display. -/

namespace Sys2Proof.Machine

/-! ### The key latch under a tick and a `keypress` -/

/-- No instruction writes the key latch, and a latched tick and a taken fault do not either (R126, R128, R277). -/
theorem key_of_tick {rnd : Byte} {s t : State} (h : tickBy (execWith rnd) s = .next t) : t.key = s.key := by
  rcases tickBy_cases (execWith rnd) s with ⟨-, hs⟩ | ⟨f, -, -, hs⟩ | ⟨i, -, -, hs⟩
  · cases hs.symm.trans h
    rfl
  · cases hs.symm.trans h
    rfl
  · have hexec : execWith rnd i s = .next t := hs.symm.trans h
    have hframed : FramedOutcome i s (.next t) := hexec ▸ execWith_framed rnd i s
    exact hframed.keepsUnwritten.1.keys

section
variable {s : State} {index : Nat} {pressed : Bool}

theorem State.keypress_valid (h : index < 16) : s.keypress index pressed = ({ s with key := s.key.set index pressed }, .ok) :=
  dif_pos h

theorem State.keypress_invalid (h : 15 < index) : s.keypress index pressed = (s, .rejected (.invalidKeyIndex index)) :=
  dif_neg (Nat.not_lt.2 h)

theorem State.keypress_key_of_ne {k : Fin 16} (h : k.val ≠ index) : (s.keypress index pressed).1.key[k] = s.key[k] := by
  rcases Nat.lt_or_ge index 16 with hvalid | hinvalid
  · rw [State.keypress_valid hvalid]
    exact Vector.getElem_set_ne hvalid k.isLt h.symm
  · rw [State.keypress_invalid hinvalid]

end

/-- A press and a release leave the entry false, and a key that was not pressed is there again (R277). -/
theorem State.keypress_release_after_press {s : State} {k : Fin 16} (h : s.key[k] = false) :
    (s.keypress k.val true).1.keypress k.val false = (s, .ok) := by
  have hkey : (s.key.set k.val true).set k.val false = s.key := by
    rw [Vector.set_set, ← h]
    exact Vector.set_getElem_self k.isLt
  rw [State.keypress_valid k.isLt, State.keypress_valid k.isLt]
  simp only [hkey]

/-! ### One more command of a run -/

theorem runCommands_cons {c : Command} {cs : List Command} {s t u : State} {response : Response} {responses : List Response}
    (hc : command c s = .next (t, response)) (hcs : runCommands cs t = .next (u, responses)) :
    runCommands (c :: cs) s = .next (u, response :: responses) := by
  simp only [runCommands, hc, hcs]

/-! ### The report of `tick_timer` -/

/-- ST is 1 as a byte when it is 1 as a number (R273). -/
theorem State.soundExpires_eq (s : State) : s.soundExpires = decide (s.st.toNat = 1) :=
  decide_eq_decide.2 (BitVec.toNat_inj (y := 1#8)).symm

/-- The reports of `n + 1` commands `tick_timer` are the first one's, whether ST is 1, and those of `n` from ST less one. -/
theorem soundReports_succ (n st : Nat) :
    (List.range (n + 1)).map (fun k => Response.soundExpired (decide (k + 1 = st))) =
      .soundExpired (decide (st = 1)) :: (List.range n).map fun k => .soundExpired (decide (k + 1 = st - 1)) := by
  have hlater (k : Nat) : k + 1 + 1 = st ↔ k + 1 = st - 1 := by omega
  simp only [List.range_succ_eq_map, List.map_cons, List.map_map, Function.comp_def, Nat.succ_eq_add_one, hlater, Nat.zero_add,
    eq_comm (a := 1)]

/-! ### The memory that `observe` returns -/

theorem State.observation_memory_length (s : State) : s.observation.memory.length = 4096 := by
  rw [State.observation, List.length_map, List.length_range, Config.memSize]

/-- The observed memory is the byte at every address of memory (R281, R35). -/
theorem State.observation_memory_getElem? (s : State) {a : Nat} (h : a < 4096) : s.observation.memory[a]? = some (s.byteAt a) := by
  have hin : a < Config.memSize := h
  rw [State.observation, List.getElem?_map, List.getElem?_range hin, Option.map_some]

/-! ### The statements -/

/-- Settles O42: the first part command by command, a tick keeping the whole latch and a `keypress` every entry but its own. -/
theorem keyLatchHoldsLevels : Obligations.KeyLatchHoldsLevels := by
  refine ⟨fun c s t response k hc hne => ?writers, fun s k hreleased => ?level⟩
  case writers =>
    cases c with
    | reset => exact .inl rfl
    | keypress index pressed =>
      obtain rfl : (s.keypress index pressed).1 = t := congrArg Prod.fst (Host.Outcome.next.inj hc)
      have hindex : k.val = index := Decidable.not_imp_comm.1 State.keypress_key_of_ne hne
      exact .inr ⟨pressed, by rw [hindex]⟩
    | tick rnd => exact absurd (by rw [key_of_tick (command_tick_next hc)]) hne
    | load bytes =>
      obtain rfl : (s.load bytes).1 = t := congrArg Prod.fst (Host.Outcome.next.inj hc)
      exact absurd (by rw [s.load_frame bytes]) hne
    | tickTimer | getDisplay | observe =>
      cases hc
      exact absurd rfl hne
  case level =>
    have hpress : command (.keypress k.val true) s = .next ((s.keypress k.val true).1, .ok) :=
      congrArg Host.Outcome.next (by rw [State.keypress_valid k.isLt])
    have hrelease : command (.keypress k.val false) (s.keypress k.val true).1 = .next (s, .ok) :=
      congrArg Host.Outcome.next (State.keypress_release_after_press hreleased)
    exact runCommands_cons hpress (runCommands_cons hrelease rfl)

/-- Settles O44: each timer counts down by itself. -/
theorem tickTimerDecrementsNonzeroTimers : Obligations.TickTimerDecrementsNonzeroTimers := by
  intro s
  refine ⟨s.tickTimer, ?_, countDown_toNat s.dt, countDown_toNat s.st, rfl⟩
  rw [← State.soundExpires_eq]
  rfl

/-- Settles O45, by induction on the number of commands: the first one is O44, the others start from the timers it left. -/
theorem timersReachZeroAndStay : Obligations.TimersReachZeroAndStay := by
  intro n
  induction n with
  | zero => exact fun s => ⟨s, rfl, rfl, rfl⟩
  | succ n ih =>
    intro s
    obtain ⟨t, hfirst, hdt, hst, -⟩ := tickTimerDecrementsNonzeroTimers s
    obtain ⟨u, hrest, hdt', hst'⟩ := ih t
    refine ⟨u, ?_, by omega, by omega⟩
    rw [soundReports_succ, ← hst]
    exact runCommands_cons hfirst hrest

/-- Settles O46, by the two cases of `keypress`. -/
theorem keypressSetsOneEntry : Obligations.KeypressSetsOneEntry := by
  refine fun s index pressed => ⟨fun hvalid => ?sets, fun hinvalid => ?rejects⟩
  case sets =>
    refine ⟨{ s with key := s.key.set index pressed }, congrArg Host.Outcome.next (State.keypress_valid hvalid),
      Vector.getElem_set_self hvalid, fun k hk => Vector.getElem_set_ne hvalid k.isLt hk.symm, rfl⟩
  case rejects => exact congrArg Host.Outcome.next (State.keypress_invalid hinvalid)

/-- Settles O49, by the length of the row-major sequence and its element for each pixel. -/
theorem getDisplayIsRowMajor : Obligations.GetDisplayIsRowMajor :=
  fun s => ⟨s.disp.rowMajor, rfl, s.disp.rowMajor_length, s.disp.rowMajor_getElem?⟩

/-- Settles O50: every field but memory is the state's own, and memory is its 4096 bytes. -/
theorem observeReturnsTheWholeState : Obligations.ObserveReturnsTheWholeState :=
  fun s => ⟨s.observation, rfl, rfl, rfl, rfl, rfl, rfl, rfl, rfl, rfl, rfl, rfl, rfl, s.observation_memory_length,
    fun _ h => s.observation_memory_getElem? h⟩

end Sys2Proof.Machine
end

section
/-! SUPPORT. The settling of the statements about reset and hazards (70_reset_and_hazards.md): what every byte reads as after
`reset`, and the word and the instruction a tick fetches then; then the statements, with the laws of `load` and of a tick whose
fetch faults. -/

namespace Sys2Proof.Machine

/-! ### Memory after `reset` (R40, R61) -/

theorem State.resetFrom_byteAt_font (s : State) {a : Nat} (h : a < 80) : s.resetFrom.byteAt a = s.font[a] := dif_pos h

theorem State.resetFrom_byteAt_zero (s : State) {a : Nat} (h : 80 ≤ a) : s.resetFrom.byteAt a = 0 :=
  dif_neg (Nat.not_lt.2 h)

/-! ### A fetch from the entry point (R121) -/

/-- The word fetched at the entry point is made of the bytes at 0x200 and 0x201 (R63). -/
theorem State.fetchWord_entry {s : State} (hpc : s.pc = 0x200) :
    s.fetchWord = .ok (wordOfBytes (s.byteAt 0x200) (s.byteAt 0x201)) := by
  have hentry : s.pc.toNat = 0x200 := congrArg BitVec.toNat hpc
  rw [s.fetchWord_inside (by omega), hentry]

/-- The zero word is of group 0 and neither CLS nor RET (R98). -/
theorem decodeWord_zero : decodeWord 0 = .error (.unimplementedOpcode 0) :=
  decodeWord_of_decodeByGroup_none ((decodeByGroup_eq_none_iff 0).2 (.inl (by decide)))

theorem State.resetFrom_fetchInstr (s : State) : s.resetFrom.fetchInstr = .error (.unimplementedOpcode 0) := by
  have hword : s.resetFrom.fetchWord = .ok 0 := by
    rw [State.fetchWord_entry rfl, s.resetFrom_byteAt_zero (by decide), s.resetFrom_byteAt_zero (by decide)]
    rfl
  simp only [State.fetchInstr, hword, decodeWord_zero]

/-- The command `tick` takes a fault of the fetch or the decode and returns what it latches (R120, R126). -/
theorem command_tick_fetch_error {s : State} {f : Fault} (rnd : Byte) (hfault : s.fault = none)
    (hfetch : s.fetchInstr = .error f) :
    command (.tick rnd) s = .next (s.takeFault f, .faulted { kind := f, faultPc := s.pc }) := by
  have htick : tickWith rnd s = .next (s.takeFault f) := tickBy_fetch_error hfault hfetch
  simp only [command, htick]
  rfl

/-! ### The statements -/

/-- Settles O51: the ROM fits, so its first two bytes stand at 0x200 and 0x201, where reset has put `pc`. -/
theorem loadedRomIsFetchedFromTheEntry : Obligations.LoadedRomIsFetchedFromTheEntry := by
  intro s hi lo rest hrest
  have hlen : (hi :: lo :: rest).length ≤ 3584 := by
    simp only [List.length_cons]
    omega
  obtain ⟨t, hload, hbytes, -, hframe⟩ := (loadCopiesTheRom s.resetFrom (hi :: lo :: rest) Memory.wf_nil).1 hlen
  have hpc : t.pc = 0x200 := by rw [hframe]; rfl
  have hfault : t.fault = none := by rw [hframe]; rfl
  have hhi : t.byteAt 0x200 = hi := hbytes 0 (Nat.zero_lt_succ _)
  have hlo : t.byteAt 0x201 = lo := hbytes 1 (Nat.succ_lt_succ (Nat.zero_lt_succ _))
  refine ⟨t, runCommands_cons rfl (runCommands_cons hload rfl), hpc, hfault, ?_⟩
  rw [State.fetchWord_entry hpc, hhi, hlo]

/-- Settles O48: each value is a field of the reset state; the slots, the keys and the pixels are each one value throughout. -/
theorem resetRestoresEveryPieceOfState : Obligations.ResetRestoresEveryPieceOfState := by
  refine fun s => ⟨s.resetFrom, rfl, ?regs, rfl, rfl, rfl, ?slots, rfl, rfl, ?keys, Display.pixel_clear,
    fun _ h => s.resetFrom_byteAt_font h, fun _ h => s.resetFrom_byteAt_zero h, rfl, rfl, rfl, rfl, rfl⟩
  case regs | slots | keys => exact fun k => Vector.getElem_replicate k.isLt

/-- Settles O52: no ROM is loaded, so the word fetched after `reset` is zero, and the decode rejects it. -/
theorem firstTickWithoutRomFaults : Obligations.FirstTickWithoutRomFaults := by
  intro s rnd
  have htick : command (.tick rnd) s.resetFrom =
      .next (s.resetFrom.takeFault (.unimplementedOpcode 0), .faulted { kind := .unimplementedOpcode 0, faultPc := 0x200 }) :=
    command_tick_fetch_error rnd rfl s.resetFrom_fetchInstr
  exact ⟨_, runCommands_cons rfl (runCommands_cons htick rfl), rfl⟩

end Sys2Proof.Machine
end
